-- ==== Sys2Proof/Word.lean ====
section
/-!
DEFINITION. The word types of the machine (R8, R51) and the two registers with an implicit role (R10, R11).
-/
namespace Sys2Proof

/-- A general register, a timer, a byte of memory or the immediate `kk` (R8, R51). -/
abbrev Byte := BitVec 8

/-- The program counter, the index register, a return address or an instruction word (R8, R50). -/
abbrev Word := BitVec 16

/-- The 4-bit immediate `n` (R51). -/
abbrev Nibble := BitVec 4

/-- The 12-bit immediate `addr` (R51). -/
abbrev Addr := BitVec 12

/-- A general register's number, 0 to 15; in range by construction (R10, R43). -/
abbrev Reg := Fin 16

/-- V0, the offset register of `Baddr` (R10). -/
abbrev V0 : Reg := 0

/-- VF, general register 15 and the flag register (R11). -/
abbrev VF : Reg := 15

end Sys2Proof
end

