-- ==== Sys2Proof/Syntax.lean ====
section
/-!
DEFINITION. The instructions: one constructor per row of spec/opcode_table.json (R55), with the fields of R51.
-/
namespace Sys2Proof

inductive Instr where
  /-- 00E0 `CLS`: clear the display (R124). -/
  | cls
  /-- 00EE `RET`: pop the return address into PC (R80). -/
  | ret
  /-- 0nnn other than 00E0 and 00EE, `UNKNOWN.0` (R135). -/
  | unknown0 (addr : Addr)
  /-- 1addr `JP addr` (R81). -/
  | jp (addr : Addr)
  /-- 2addr `CALL addr` (R82). -/
  | call (addr : Addr)
  /-- 3xkk `SE Vx, kk` (R90). -/
  | seImm (x : Reg) (kk : Byte)
  /-- 4xkk `SNE Vx, kk` (R91). -/
  | sneImm (x : Reg) (kk : Byte)
  /-- 5xy0 `SE Vx, Vy` (R92). -/
  | seReg (x y : Reg)
  /-- 5xyN with N other than 0, `UNKNOWN.5` (R136). -/
  | unknown5 (x y : Reg) (n : Nibble)
  /-- 6xkk `LD Vx, kk` (R100). -/
  | ldImm (x : Reg) (kk : Byte)
  /-- 7xkk `ADD Vx, kk` (R101). -/
  | addImm (x : Reg) (kk : Byte)
  /-- 8xy0 `LD Vx, Vy` (R102). -/
  | ldReg (x y : Reg)
  /-- 8xy1 `OR Vx, Vy` (R103). -/
  | orReg (x y : Reg)
  /-- 8xy2 `AND Vx, Vy` (R104). -/
  | andReg (x y : Reg)
  /-- 8xy3 `XOR Vx, Vy` (R105). -/
  | xorReg (x y : Reg)
  /-- 8xy4 `ADD Vx, Vy` (R106). -/
  | addReg (x y : Reg)
  /-- 8xy5 `SUB Vx, Vy` (R107). -/
  | subReg (x y : Reg)
  /-- 8xy6 `SHR Vx`; the field `y` is encoded and unused (R58, R108). -/
  | shr (x y : Reg)
  /-- 8xy7 `SUBN Vx, Vy` (R109). -/
  | subnReg (x y : Reg)
  /-- 8xyE `SHL Vx`; the field `y` is encoded and unused (R58, R110). -/
  | shl (x y : Reg)
  /-- 8xyN with N in 8, 9, A, B, C, D, F, `UNKNOWN.8` (R137). -/
  | unknown8 (x y : Reg) (n : Nibble)
  /-- 9xy0 `SNE Vx, Vy` (R93). -/
  | sneReg (x y : Reg)
  /-- 9xyN with N other than 0, `UNKNOWN.9` (R136). -/
  | unknown9 (x y : Reg) (n : Nibble)
  /-- Aaddr `LD I, addr` (R111). -/
  | ldI (addr : Addr)
  /-- Baddr `JP V0, addr` (R83). -/
  | jpV0 (addr : Addr)
  /-- Cxkk `UNIMP.C` (R132). -/
  | unimpC (x : Reg) (kk : Byte)
  /-- Dxyn `DRW Vx, Vy, n` (R126). -/
  | drw (x y : Reg) (n : Nibble)
  /-- Ex.. `UNIMP.E` (R133). -/
  | unimpE (x : Reg) (kk : Byte)
  /-- Fx.. `UNIMP.F` (R134). -/
  | unimpF (x : Reg) (kk : Byte)
deriving DecidableEq, Repr

end Sys2Proof
end

