-- ==== Sys2Proof/WellFormed.lean ====
section
/-!
DEFINITION. Which terms of `Instr` the encoding can produce. The fields' types keep every operand in its range (R51), so
what is left is the residue of families 0, 5, 8 and 9: an unknown word is none of the words the table lists (R57).
-/
namespace Sys2Proof

/-- 0nnn is unknown unless it is 00E0 or 00EE (R135). -/
def unknown0Ok (addr : Addr) : Bool := addr != 0x0E0 && addr != 0x0EE

/-- 5xyN and 9xyN are unknown unless N is 0 (R136). -/
def unknown59Ok (n : Nibble) : Bool := n != 0

/-- 8xyN is unknown for N in 8, 9, A, B, C, D, F (R137). -/
def unknown8Ok (n : Nibble) : Bool :=
  n == 0x8 || n == 0x9 || n == 0xA || n == 0xB || n == 0xC || n == 0xD || n == 0xF

/-- The instruction is one that some 16-bit word decodes to (R54, R55). -/
def Instr.wf : Instr → Bool
  | .unknown0 addr => unknown0Ok addr
  | .unknown5 _ _ n => unknown59Ok n
  | .unknown8 _ _ n => unknown8Ok n
  | .unknown9 _ _ n => unknown59Ok n
  | .cls | .ret | .jp _ | .call _ | .seImm _ _ | .sneImm _ _ | .seReg _ _ | .ldImm _ _ | .addImm _ _ | .ldReg _ _
  | .orReg _ _ | .andReg _ _ | .xorReg _ _ | .addReg _ _ | .subReg _ _ | .shr _ _ | .subnReg _ _ | .shl _ _
  | .sneReg _ _ | .ldI _ | .jpV0 _ | .unimpC _ _ | .drw _ _ _ | .unimpE _ _ | .unimpF _ _ => true

end Sys2Proof
end

