-- ==== Sys2Proof/Decode.lean ====
section
/-!
DEFINITION. The decoder (R51, R54, R55, R57 of 30_encoding.md), the encoder written from the same tables, and the opcode
map of R55 as data.
-/
namespace Sys2Proof

/-! ### Fields of an instruction word (R51) -/

/-- `op` = `w[15:12]`. -/
def fieldOp (w : Word) : Nibble := w.extractLsb' 12 4

/-- `x` = `w[11:8]`. -/
def fieldX (w : Word) : Reg := (w.extractLsb' 8 4).toFin

/-- `y` = `w[7:4]`. -/
def fieldY (w : Word) : Reg := (w.extractLsb' 4 4).toFin

/-- `n` = `w[3:0]`. -/
def fieldN (w : Word) : Nibble := w.extractLsb' 0 4

/-- `kk` = `w[7:0]`. -/
def fieldKk (w : Word) : Byte := w.extractLsb' 0 8

/-- `addr` = `w[11:0]`. -/
def fieldAddr (w : Word) : Addr := w.extractLsb' 0 12

/-! ### Decoding (R54, R55) -/

/-- Family 0: 00E0, 00EE and the unknown rest (R57, R135). -/
def decodeFamily0 (w : Word) : Instr :=
  if w = 0x00E0 then .cls
  else if w = 0x00EE then .ret
  else .unknown0 (fieldAddr w)

/-- Family 5: 5xy0 and the unknown rest (R57, R136). -/
def decodeFamily5 (w : Word) : Instr :=
  if fieldN w = 0 then .seReg (fieldX w) (fieldY w)
  else .unknown5 (fieldX w) (fieldY w) (fieldN w)

/-- Family 8: the low nibble selects the operation; seven of its values are unknown (R57, R137). -/
def decodeFamily8 (w : Word) : Instr :=
  let x := fieldX w
  let y := fieldY w
  match (fieldN w).toNat with
  | 0x0 => .ldReg x y
  | 0x1 => .orReg x y
  | 0x2 => .andReg x y
  | 0x3 => .xorReg x y
  | 0x4 => .addReg x y
  | 0x5 => .subReg x y
  | 0x6 => .shr x y
  | 0x7 => .subnReg x y
  | 0xE => .shl x y
  | _ => .unknown8 x y (fieldN w)

/-- Family 9: 9xy0 and the unknown rest (R57, R136). -/
def decodeFamily9 (w : Word) : Instr :=
  if fieldN w = 0 then .sneReg (fieldX w) (fieldY w)
  else .unknown9 (fieldX w) (fieldY w) (fieldN w)

/-- Decoding is total: every word is exactly one operation, and no word traps (R54, R56). -/
def decode (w : Word) : Instr :=
  match (fieldOp w).toNat with
  | 0x0 => decodeFamily0 w
  | 0x1 => .jp (fieldAddr w)
  | 0x2 => .call (fieldAddr w)
  | 0x3 => .seImm (fieldX w) (fieldKk w)
  | 0x4 => .sneImm (fieldX w) (fieldKk w)
  | 0x5 => decodeFamily5 w
  | 0x6 => .ldImm (fieldX w) (fieldKk w)
  | 0x7 => .addImm (fieldX w) (fieldKk w)
  | 0x8 => decodeFamily8 w
  | 0x9 => decodeFamily9 w
  | 0xA => .ldI (fieldAddr w)
  | 0xB => .jpV0 (fieldAddr w)
  | 0xC => .unimpC (fieldX w) (fieldKk w)
  | 0xD => .drw (fieldX w) (fieldY w) (fieldN w)
  | 0xE => .unimpE (fieldX w) (fieldKk w)
  | _ => .unimpF (fieldX w) (fieldKk w)

/-- Two consecutive bytes as an instruction word: the byte at the lower address is bits 15:8 (R32, R34, R50). -/
def wordOfBytes (hi lo : Byte) : Word := hi ++ lo

/-- Why a sequence of bytes holds no instruction. Only the byte-level decoder answers this; a step never does, since its
fetch has two bytes or faults (R72). Safe: nothing is decoded. -/
inductive DecodeError where
  /-- Fewer than the two bytes that every instruction occupies (R50). -/
  | fewerThanTwoBytes
deriving DecidableEq, Repr

/-- The decoder on bytes as they stand in memory: two bytes are one instruction and the rest is left over; a third byte is
never consumed (R50, R59). -/
def decodeBytes : List Byte → Except DecodeError (Instr × List Byte)
  | hi :: lo :: rest => .ok (decode (wordOfBytes hi lo), rest)
  | _ => .error .fewerThanTwoBytes

/-- The host's probe: the instruction read from a word numbered as spec/opcode_table.json numbers it. The two bytes are laid
out as memory holds them, high byte at the lower address. -/
def decodeTableWord (nbits w : Nat) : Option Instr :=
  if nbits ≤ 16 then
    let word : Word := BitVec.ofNat 16 (w % 2 ^ nbits)
    match decodeBytes [word.extractLsb' 8 8, word.extractLsb' 0 8] with
    | .ok (i, _) => some i
    | .error _ => none
  else none

/-! ### Encoding (R52) -/

/-- A register number as the 4-bit field it stands in. -/
def regBits (r : Reg) : Nibble := BitVec.ofFin r

/-- Format `A`: `op`, `addr`. -/
def formatA (op : Nibble) (addr : Addr) : Word := op ++ addr

/-- Formats `XK` and `XS`: `op`, `x`, a byte. -/
def formatXK (op : Nibble) (x : Reg) (kk : Byte) : Word := (op ++ regBits x) ++ kk

/-- Formats `XY` and `XYN`: `op`, `x`, `y`, a low nibble (sub-function code or `n`). -/
def formatXY (op : Nibble) (x y : Reg) (n : Nibble) : Word := ((op ++ regBits x) ++ regBits y) ++ n

/-- The word of an instruction (R52, R55). -/
def encode : Instr → Word
  | .cls => 0x00E0
  | .ret => 0x00EE
  | .unknown0 addr => formatA 0x0 addr
  | .jp addr => formatA 0x1 addr
  | .call addr => formatA 0x2 addr
  | .seImm x kk => formatXK 0x3 x kk
  | .sneImm x kk => formatXK 0x4 x kk
  | .seReg x y => formatXY 0x5 x y 0x0
  | .unknown5 x y n => formatXY 0x5 x y n
  | .ldImm x kk => formatXK 0x6 x kk
  | .addImm x kk => formatXK 0x7 x kk
  | .ldReg x y => formatXY 0x8 x y 0x0
  | .orReg x y => formatXY 0x8 x y 0x1
  | .andReg x y => formatXY 0x8 x y 0x2
  | .xorReg x y => formatXY 0x8 x y 0x3
  | .addReg x y => formatXY 0x8 x y 0x4
  | .subReg x y => formatXY 0x8 x y 0x5
  | .shr x y => formatXY 0x8 x y 0x6
  | .subnReg x y => formatXY 0x8 x y 0x7
  | .shl x y => formatXY 0x8 x y 0xE
  | .unknown8 x y n => formatXY 0x8 x y n
  | .sneReg x y => formatXY 0x9 x y 0x0
  | .unknown9 x y n => formatXY 0x9 x y n
  | .ldI addr => formatA 0xA addr
  | .jpV0 addr => formatA 0xB addr
  | .unimpC x kk => formatXK 0xC x kk
  | .drw x y n => formatXY 0xD x y n
  | .unimpE x kk => formatXK 0xE x kk
  | .unimpF x kk => formatXK 0xF x kk

/-- The two bytes of an instruction as they stand in memory, high byte first (R50). -/
def encodeBytes (i : Instr) : List Byte := [(encode i).extractLsb' 8 8, (encode i).extractLsb' 0 8]

/-! ### The opcode map as data (R54, R55) -/

/-- The instruction's mnemonic in spec/opcode_table.json. -/
def Instr.mnemonic : Instr → String
  | .cls => "CLS"
  | .ret => "RET"
  | .unknown0 _ => "UNKNOWN.0"
  | .jp _ => "JP_addr"
  | .call _ => "CALL_addr"
  | .seImm _ _ => "SE_Vx__kk"
  | .sneImm _ _ => "SNE_Vx__kk"
  | .seReg _ _ => "SE_Vx__Vy"
  | .unknown5 _ _ _ => "UNKNOWN.5"
  | .ldImm _ _ => "LD_Vx__kk"
  | .addImm _ _ => "ADD_Vx__kk"
  | .ldReg _ _ => "LD_Vx__Vy"
  | .orReg _ _ => "OR_Vx__Vy"
  | .andReg _ _ => "AND_Vx__Vy"
  | .xorReg _ _ => "XOR_Vx__Vy"
  | .addReg _ _ => "ADD_Vx__Vy"
  | .subReg _ _ => "SUB_Vx__Vy"
  | .shr _ _ => "SHR_Vx"
  | .subnReg _ _ => "SUBN_Vx__Vy"
  | .shl _ _ => "SHL_Vx"
  | .unknown8 _ _ _ => "UNKNOWN.8"
  | .sneReg _ _ => "SNE_Vx__Vy"
  | .unknown9 _ _ _ => "UNKNOWN.9"
  | .ldI _ => "LD_I__addr"
  | .jpV0 _ => "JP_V0__addr"
  | .unimpC _ _ => "UNIMP.C"
  | .drw _ _ _ => "DRW_Vx__Vy__n"
  | .unimpE _ _ => "UNIMP.E"
  | .unimpF _ _ => "UNIMP.F"

/-- The instruction is a no-operation encoding that emits a diagnostic (R131 to R137). -/
def Instr.isNoOp : Instr → Bool
  | .unknown0 _ | .unknown5 _ _ _ | .unknown8 _ _ _ | .unknown9 _ _ _
  | .unimpC _ _ | .unimpE _ _ | .unimpF _ _ => true
  | .cls | .ret | .jp _ | .call _ | .seImm _ _ | .sneImm _ _ | .seReg _ _ | .ldImm _ _ | .addImm _ _ | .ldReg _ _
  | .orReg _ _ | .andReg _ _ | .xorReg _ _ | .addReg _ _ | .subReg _ _ | .shr _ _ | .subnReg _ _ | .shl _ _
  | .sneReg _ _ | .ldI _ | .jpV0 _ | .drw _ _ _ => false

/-- A row of the map: the mnemonic, the mask, the match (`w & mask == match` selects the row). -/
abbrev OpcodeRow := String × Word × Word

/-- The word matches the row. -/
def OpcodeRow.selects (r : OpcodeRow) (w : Word) : Bool := w &&& r.2.1 == r.2.2

/-- The rows of priority 0, tested first (R54). -/
def exactRows : List OpcodeRow :=
  [("CLS", 0xFFFF, 0x00E0), ("RET", 0xFFFF, 0x00EE), ("JP_addr", 0xF000, 0x1000), ("CALL_addr", 0xF000, 0x2000),
   ("SE_Vx__kk", 0xF000, 0x3000), ("SNE_Vx__kk", 0xF000, 0x4000), ("SE_Vx__Vy", 0xF00F, 0x5000),
   ("LD_Vx__kk", 0xF000, 0x6000), ("ADD_Vx__kk", 0xF000, 0x7000), ("LD_Vx__Vy", 0xF00F, 0x8000)] ++
  [("OR_Vx__Vy", 0xF00F, 0x8001), ("AND_Vx__Vy", 0xF00F, 0x8002), ("XOR_Vx__Vy", 0xF00F, 0x8003),
   ("ADD_Vx__Vy", 0xF00F, 0x8004), ("SUB_Vx__Vy", 0xF00F, 0x8005), ("SHR_Vx", 0xF00F, 0x8006),
   ("SUBN_Vx__Vy", 0xF00F, 0x8007), ("SHL_Vx", 0xF00F, 0x800E), ("SNE_Vx__Vy", 0xF00F, 0x9000)] ++
  [("LD_I__addr", 0xF000, 0xA000), ("JP_V0__addr", 0xF000, 0xB000), ("UNIMP.C", 0xF000, 0xC000),
   ("DRW_Vx__Vy__n", 0xF000, 0xD000), ("UNIMP.E", 0xF000, 0xE000), ("UNIMP.F", 0xF000, 0xF000)]

/-- The rows of priority 1: the fallbacks of families 0, 5, 8 and 9 (R54). -/
def fallbackRows : List OpcodeRow :=
  [("UNKNOWN.0", 0xF000, 0x0000), ("UNKNOWN.5", 0xF000, 0x5000), ("UNKNOWN.8", 0xF000, 0x8000), ("UNKNOWN.9", 0xF000, 0x9000)]

end Sys2Proof
end

