-- ==== Sys2Proof/Config.lean ====
section
/-!
DEFINITION. The implementation parameters (R4 to R7 of 00_scope.md) at the values the spec fixes for this hardware.
The spec leaves no value free (93_implementation_defined.md), so there is no uninterpreted constant here.
-/
namespace Sys2Proof.Config

/-- `MEM_SIZE` (R4). -/
abbrev memSize : Nat := 4096

/-- `DISP_W` (R5). -/
abbrev dispW : Nat := 64

/-- `DISP_H` (R5). -/
abbrev dispH : Nat := 32

/-- `LOAD_BASE` (R6). -/
abbrev loadBase : Nat := 0x200

/-- `STACK_DEPTH` (R7). -/
abbrev stackDepth : Nat := 16

/-- What a byte of memory reads as while nothing has been loaded over it (R17, R21). -/
abbrev unlistedByte : Byte := 0x00

end Sys2Proof.Config
end

