-- ==== Sys2Proof/Machine/State.lean ====
section
/-!
DEFINITION. The state of the machine (10_state.md), the faults (60_exceptions.md) and the state after reset (R21).
-/
namespace Sys2Proof.Machine

/-- The memory `M` (R17): the bytes that differ from `Config.unlistedByte`, by strictly rising address. Log entry 1. -/
abbrev Memory := List Host.Cell

/-- The display `D` (R18): `D[y][x]`, 32 rows from the top, each 64 pixels from the left; `true` is lit. -/
abbrev Display := Vector (Vector Bool 64) 32

/-- One diagnostic event `diag(pc0, w)` (R144). -/
structure DiagEvent where
  pc : Word
  word : Word
deriving DecidableEq, Repr

/-- All the state of the block (summary table of 10_state.md). `SP` is the length of `stack` (R15): see `State.sp`.
`diagnostics` is the model's own field (R144, log entry 2). -/
structure State where
  /-- V0 to VF (R10, R11). -/
  v : Vector Byte 16
  /-- The index register `I` (R12). -/
  i : Word
  /-- `PC` (R13). -/
  pc : Word
  /-- The call stack `S`, oldest entry first (R14). -/
  stack : List Word
  /-- The delay timer `DT` (R16). -/
  dt : Byte
  /-- The sound timer `ST` (R16). -/
  st : Byte
  /-- The memory `M` (R17). -/
  mem : Memory
  /-- The display `D` (R18). -/
  display : Display
  /-- The diagnostic events emitted so far, newest first: an output that no rule reads (R144). -/
  diagnostics : List DiagEvent
deriving DecidableEq, Repr

/-- A fatal fault with its information record (R156): `pc` is the address of the faulting instruction, `word` its
instruction word where one was fetched, `addr` the lowest offending memory address. A faulting step commits nothing (R76).
Every one is the spec's own fault, so stopping there is the hardware's behaviour, and safe. -/
inductive Fault where
  /-- R140: raised by phase 1 of a step whose `PC` is at or past `MEM_SIZE`. Safe. -/
  | programCounterOverrun (pc : Word)
  /-- R141: raised by 00EE with an empty call stack. Safe. -/
  | stackUnderflow (pc word : Word)
  /-- R142: raised by the fetch at `MEM_SIZE - 1` (no word) and by Dxyn whose sprite leaves memory. Safe. -/
  | outOfBounds (pc : Word) (word : Option Word) (addr : Nat)
  /-- R143: raised by 2addr with `STACK_DEPTH` entries on the call stack. Safe (log entry 6). -/
  | stackOverflow (pc word : Word)
deriving DecidableEq, Repr

/-- Reasons to give no meaning. No arm of `exec` answers one: every row of the opcode table has its meaning. -/
inductive Refusal where
  /-- An instruction that has no meaning yet; raised by no instruction of this model. Safe. -/
  | notModelled (mnemonic : String)
deriving DecidableEq, Repr

/-- What a meaning answers. -/
abbrev Result := Host.Outcome State Fault Refusal

/-- The display with every pixel off (R18, R21). -/
def Display.off : Display := Vector.replicate 32 (Vector.replicate 64 false)

/-- The machine right after reset (R21, R160): everything zero, memory with nothing listed. -/
def State.reset : State where
  v := Vector.replicate 16 0x00
  i := 0x0000
  pc := 0x0000
  stack := []
  dt := 0x00
  st := 0x00
  mem := []
  display := Display.off
  diagnostics := []

end Sys2Proof.Machine
end

