-- ==== Sys2Proof/Machine/Ops.lean ====
section
/-!
DEFINITION. The named operations over memory, registers, the program counter, the call stack and the diagnostic output,
raising a fault, and the fetch: everything the meanings share.
-/
namespace Sys2Proof.Machine

/-! ### Memory (20_memory.md) -/

/-- `M[a]`: the listed byte, or what an unlisted address reads as (R17, R21). -/
def Memory.byteAt : Memory → Nat → Byte
  | [], _ => Config.unlistedByte
  | (k, b) :: rest, a => if k = a then b else Memory.byteAt rest a

/-- `M[a] <- b`, keeping the canonical form: rising addresses, and no entry equal to what an unlisted address reads as. -/
def Memory.setByte : Memory → Nat → Byte → Memory
  | [], a, b => if b = Config.unlistedByte then [] else [(a, b)]
  | (k, c) :: rest, a, b =>
    if a < k then
      if b = Config.unlistedByte then (k, c) :: rest else (a, b) :: (k, c) :: rest
    else if a = k then
      if b = Config.unlistedByte then rest else (a, b) :: rest
    else (k, c) :: Memory.setByte rest a b

/-- The canonical form of the memory list (log entry 1). -/
abbrev Memory.wf (m : Memory) : Prop :=
  m.Pairwise (fun c d => c.1 < d.1) ∧ ∀ c ∈ m, c.1 < Config.memSize ∧ c.2 ≠ Config.unlistedByte

/-- `MemRead(addr, 1)` (R31): OutOfBounds, with the offending address, unless `addr < MEM_SIZE`. -/
def Memory.read1 (m : Memory) (addr : Nat) : Except Nat Byte :=
  if addr < Config.memSize then .ok (m.byteAt addr) else .error addr

/-- `MemRead(addr, 2)` (R32): big-endian; OutOfBounds unless `addr < MEM_SIZE - 1`. -/
def Memory.read2 (m : Memory) (addr : Nat) : Except Nat Word :=
  if addr < Config.memSize - 1 then .ok (wordOfBytes (m.byteAt addr) (m.byteAt (addr + 1))) else .error addr

/-- The `n` single-byte reads of Dxyn at `addr`, `addr + 1`, ... in ascending order (R129); the first read that fails gives
the lowest offending address. -/
def Memory.readRange (m : Memory) : (addr n : Nat) → Except Nat (List Byte)
  | _, 0 => .ok []
  | addr, n + 1 =>
    match m.read1 addr with
    | .error a => .error a
    | .ok b =>
      match Memory.readRange m (addr + 1) n with
      | .error a => .error a
      | .ok bs => .ok (b :: bs)

/-- The bytes one after another from `addr` upward. -/
def Memory.setBytes (m : Memory) (addr : Nat) : List Byte → Memory
  | [] => m
  | b :: bs => Memory.setBytes (m.setByte addr b) (addr + 1) bs

/-- `MemWrite(addr, n, bytes)` (R33), used by the host load only: nothing when the write would exceed the capacity. -/
def Memory.write (m : Memory) (addr : Nat) (bytes : List Byte) : Option Memory :=
  if addr + bytes.length ≤ Config.memSize then some (m.setBytes addr bytes) else none

/-! ### Registers (10_state.md) -/

/-- `V[r]` (R10). -/
def State.readV (s : State) (r : Reg) : Byte := s.v[r]

/-- `V[r] <- b` (R10): none of the sixteen is hardwired. -/
def State.setV (s : State) (r : Reg) (b : Byte) : State := { s with v := s.v.set r b }

/-- `I <- a` (R12). -/
def State.setI (s : State) (a : Word) : State := { s with i := a }

/-- `PC <- target` (R13). -/
def State.setPc (s : State) (target : Word) : State := { s with pc := target }

/-- The stack pointer `SP`: the number of entries on the call stack (R15). -/
abbrev State.sp (s : State) : Nat := s.stack.length

/-- `SP` in its width of 5 bits (R15). -/
def State.spBits (s : State) : BitVec 5 := BitVec.ofNat 5 s.sp

/-- The display replaced. -/
def State.setDisplay (s : State) (d : Display) : State := { s with display := d }

/-! ### The program counter within a step (40_fetch_decode_execute.md) -/

/-- Phase 2b, the advance by 2 before execution (R73). -/
def State.advancePc (s : State) : State := s.setPc (s.pc + 2)

/-- `skip`: a further 2, on top of the fetch advance (R75). -/
def State.skip (s : State) : State := s.setPc (s.pc + 2)

/-- `pc0`, the address the executing instruction was fetched from: during execution PC is `pc0 + 2` (R73). Log entry 5. -/
def State.pc0 (s : State) : Word := s.pc - 2

/-! ### The call stack (R14) -/

/-- `push(v)`: append as the newest entry. -/
def State.push (s : State) (a : Word) : State := { s with stack := s.stack ++ [a] }

/-- `pop()`: the newest entry and the state without it; nothing when the stack is empty. -/
def State.pop (s : State) : Option (Word × State) :=
  match s.stack.getLast? with
  | some a => some (a, { s with stack := s.stack.dropLast })
  | none => none

/-! ### The diagnostic output (R144) -/

/-- `diag(pc0, w)`: one event on the diagnostic output; log entry 2. -/
def State.diag (s : State) (e : DiagEvent) : State := { s with diagnostics := e :: s.diagnostics }

/-! ### Faults (60_exceptions.md) -/

/-- Raising a fault (R76, R146): the step ends with it and nothing is committed. It saves nothing, switches no mode and goes
to no handler; there is no return from it (R147). -/
def raise (f : Fault) : Result := .fault f

/-- The fault's number on the result port (section 1 of 60_exceptions.md, D26). -/
def Fault.code : Fault → Nat
  | .programCounterOverrun _ => 1
  | .stackUnderflow _ _ => 2
  | .outOfBounds _ _ _ => 3
  | .stackOverflow _ _ => 4

/-- The record's field `pc`: the address of the faulting instruction (R156). -/
def Fault.pc : Fault → Word
  | .programCounterOverrun pc | .stackUnderflow pc _ | .outOfBounds pc _ _ | .stackOverflow pc _ => pc

/-- The record's field `word`: present for the faults of phase 4 only (R156). -/
def Fault.word : Fault → Option Word
  | .programCounterOverrun _ => none
  | .stackUnderflow _ w | .stackOverflow _ w => some w
  | .outOfBounds _ w _ => w

/-- The record's field `addr`: present for OutOfBounds only (R156). -/
def Fault.addr : Fault → Option Nat
  | .outOfBounds _ _ a => some a
  | .programCounterOverrun _ | .stackUnderflow _ _ | .stackOverflow _ _ => none

/-! ### Fetch (R71, R72) -/

/-- Phases 1 and 2a: the overrun check, then the big-endian fetch at PC. -/
def State.fetch (s : State) : Except Fault Word :=
  if Config.memSize ≤ s.pc.toNat then .error (.programCounterOverrun s.pc)
  else
    match s.mem.read2 s.pc.toNat with
    | .error a => .error (.outOfBounds s.pc none a)
    | .ok w => .ok w

end Sys2Proof.Machine
end

