-- ==== Sys2Proof/Machine/Operands.lean ====
section
/-!
DEFINITION. The operand forms (R53) and the arithmetic on them (R113): a register, `kk`, `addr` zero-extended, `addr` plus
V0, `n` as a count; the 8-bit results narrowed from the exact one.
-/
namespace Sys2Proof.Machine

/-- `addr` zero-extended to 16 bits, for PC and `I` (R53). -/
def addrOperand (addr : Addr) : Word := addr.setWidth 16

/-- `addr + V0`, both zero-extended (R53, R83). -/
def addrPlusV0 (s : State) (addr : Addr) : Word := addr.setWidth 16 + (s.readV V0).setWidth 16

/-- `n` as an unsigned count of sprite rows (R53). -/
def rowCount (n : Nibble) : Nat := n.toNat

/-- `(a + b) mod 256` (R113). -/
def addByte (a b : Byte) : Byte := BitVec.ofNat 8 (a.toNat + b.toNat)

/-- `(a - b) mod 256` (R113). -/
def subByte (a b : Byte) : Byte := BitVec.ofInt 8 (a.toNat - b.toNat)

/-- `a >> 1`, logical (R113). -/
def shrByte (a : Byte) : Byte := a >>> 1

/-- `(a << 1) mod 256` (R113). -/
def shlByte (a : Byte) : Byte := a <<< 1

end Sys2Proof.Machine
end

