-- ==== Sys2Proof/Machine/ControlFlow.lean ====
section
/-!
DEFINITION. The control transfers (41_control_flow.md). On entry PC is already `pc0 + 2` (R73). No target is checked (R84).
-/
namespace Sys2Proof.Machine

/-- 00EE `RET` (R80): StackUnderflow on an empty call stack, otherwise the newest entry goes to PC. -/
def execRet (s : State) : Result :=
  match s.pop with
  | none => raise (.stackUnderflow s.pc0 (encode .ret))
  | some (a, t) => .next (t.setPc a)

/-- 1addr `JP addr` (R81). -/
def execJp (addr : Addr) (s : State) : Result := .next (s.setPc (addrOperand addr))

/-- 2addr `CALL addr` (R82): StackOverflow when the call stack is full, otherwise the advanced PC is pushed. -/
def execCall (addr : Addr) (s : State) : Result :=
  if s.sp = Config.stackDepth then raise (.stackOverflow s.pc0 (encode (.call addr)))
  else .next ((s.push s.pc).setPc (addrOperand addr))

/-- Baddr `JP V0, addr` (R83): the sum is not reduced modulo the memory size. -/
def execJpV0 (addr : Addr) (s : State) : Result := .next (s.setPc (addrPlusV0 s addr))

end Sys2Proof.Machine
end

