-- ==== Sys2Proof/Machine/DisplayEngine.lean ====
section
/-!
DEFINITION. The display engine's three operations (R121 to R123) and the processor's draw routine, which reduces and clips
coordinates before it calls the engine (R125 to R128).
-/
namespace Sys2Proof.Machine

/-- `D[y][x]` for a column and a row of the display. -/
def Display.at (d : Display) (x : Fin 64) (y : Fin 32) : Bool := d[y][x]

/-- Engine clear: every pixel off (R121). -/
def Display.clear (_ : Display) : Display := Display.off

/-- Engine XOR composite of one pixel, and whether it collided (R122). -/
def Display.xorAt (d : Display) (x : Fin 64) (y : Fin 32) (value : Bool) : Display × Bool :=
  (d.set y (d[y].set x (Bool.xor (d.at x y) value)), d.at x y && value)

/-- `draw_xor` as the engine offers it: a bounds error (no answer) unless `x < 64` and `y < 32` (R122). -/
def Display.drawXor (d : Display) (x y : Nat) (value : Bool) : Option (Display × Bool) :=
  if h : x < Config.dispW ∧ y < Config.dispH then some (d.xorAt ⟨x, h.1⟩ ⟨y, h.2⟩ value) else none

/-- `get` (R123): the pixel, or a bounds error (no answer). -/
def Display.get? (d : Display) (x y : Nat) : Option Bool :=
  if h : x < Config.dispW ∧ y < Config.dispH then some (d.at ⟨x, h.1⟩ ⟨y, h.2⟩) else none

/-- `dump` (R123): the rows from top to bottom, each from left to right. -/
def Display.dump (d : Display) : List (List Bool) := d.toList.map Vector.toList

/-- Sprite column `c` of a row byte: bit 7 is the leftmost pixel (R128). -/
def spriteColumn (b : Byte) (c : Nat) : Bool := b.getLsbD (7 - c)

/-- What a draw carries along: the display and whether any pixel collided so far (R127). -/
abbrev Canvas := Display × Bool

/-- One sprite pixel at `(xx, yy)`: the draw routine tests the coordinates itself and hands the engine only pixels of the
display; a pixel past the right or bottom edge is clipped (R122, R125). -/
def drawPixel (xx yy : Nat) (bit : Bool) (c : Canvas) : Canvas :=
  if h : xx < Config.dispW ∧ yy < Config.dispH then
    let drawn := c.1.xorAt ⟨xx, h.1⟩ ⟨yy, h.2⟩ bit
    (drawn.1, c.2 || drawn.2)
  else c

/-- The columns `c`, `c + 1`, ... of a row byte, `left` of them, on display row `yy` (R126). -/
def drawColumns (b : Byte) (x0 yy : Nat) : (c left : Nat) → Canvas → Canvas
  | _, 0, canvas => canvas
  | c, left + 1, canvas => drawColumns b x0 yy (c + 1) left (drawPixel (x0 + c) yy (spriteColumn b c) canvas)

/-- The sprite's rows from display row `yy` downward (R126). -/
def drawRows (x0 : Nat) : (yy : Nat) → List Byte → Canvas → Canvas
  | _, [], canvas => canvas
  | yy, b :: rows, canvas => drawRows x0 (yy + 1) rows (drawColumns b x0 yy 0 8 canvas)

/-- The anchor's column: `V[x] mod 64` (R125). -/
def anchorX (vx : Byte) : Nat := vx.toNat % Config.dispW

/-- The anchor's row: `V[y] mod 32` (R125). -/
def anchorY (vy : Byte) : Nat := vy.toNat % Config.dispH

/-- The draw of a sprite's rows on a display, collision starting from 0 (R126, R127). -/
def drawSprite (d : Display) (vx vy : Byte) (rows : List Byte) : Canvas :=
  drawRows (anchorX vx) (anchorY vy) rows (d, false)

end Sys2Proof.Machine
end

