-- ==== Sys2Proof/Machine/Flags.lean ====
section
/-!
DEFINITION. The flag computations of R106 to R110, and the order in which a flag-writing instruction writes (R112).
-/
namespace Sys2Proof.Machine

/-- A flag as the byte 0x00 or 0x01 that is written into VF (R11). -/
def flagByte (f : Bool) : Byte := if f then 0x01 else 0x00

/-- 8xy4: 1 if the exact sum exceeds 255 (R106). -/
def carryFlag (a b : Byte) : Bool := decide (255 < a.toNat + b.toNat)

/-- 8xy5 and 8xy7: 1 if the minuend is strictly greater, unsigned (R107, R109). -/
def greaterFlag (a b : Byte) : Bool := decide (b.toNat < a.toNat)

/-- 8xy6: bit 0 of the value before the shift (R108). -/
def shiftedOutRight (a : Byte) : Bool := a.getLsbD 0

/-- 8xyE: bit 7 of the value before the shift (R110). -/
def shiftedOutLeft (a : Byte) : Bool := a.getLsbD 7

/-- The writes of a flag-writing instruction: the result to `V[x]`, then the flag to VF, last (R112). -/
def State.setResultAndFlag (s : State) (x : Reg) (result : Byte) (flag : Bool) : State :=
  (s.setV x result).setV VF (flagByte flag)

end Sys2Proof.Machine
end

