-- ==== Sys2Proof/Machine/Draw.lean ====
section
/-!
DEFINITION. The display instructions (R124, R126 to R130).
-/
namespace Sys2Proof.Machine

/-- 00E0 `CLS` (R124): VF is not written. -/
def execCls (s : State) : Result := .next (s.setDisplay s.display.clear)

/-- Dxyn `DRW Vx, Vy, n` (R126): all `n` bytes are read before any pixel changes, so a sprite that leaves memory faults with
nothing drawn (R129); VF is the collision flag, written last (R112, R127). -/
def execDrw (x y : Reg) (n : Nibble) (s : State) : Result :=
  match s.mem.readRange s.i.toNat (rowCount n) with
  | .error a => raise (.outOfBounds s.pc0 (some (encode (.drw x y n))) a)
  | .ok rows =>
    let drawn := drawSprite s.display (s.readV x) (s.readV y) rows
    .next ((s.setDisplay drawn.1).setV VF (flagByte drawn.2))

end Sys2Proof.Machine
end

