-- ==== Sys2Proof/Machine/LoadAlu.lean ====
section
/-!
DEFINITION. Register loads and the ALU (43_load_alu.md). Every source is read from the state before; the result is written
to `V[x]` and then, in the flag-writing forms, the flag to VF (R112).
-/
namespace Sys2Proof.Machine

/-- 6xkk `LD Vx, kk` (R100). -/
def execLdImm (x : Reg) (kk : Byte) (s : State) : Result := .next (s.setV x kk)

/-- 7xkk `ADD Vx, kk` (R101): no flag. -/
def execAddImm (x : Reg) (kk : Byte) (s : State) : Result := .next (s.setV x (addByte (s.readV x) kk))

/-- 8xy0 `LD Vx, Vy` (R102). -/
def execLdReg (x y : Reg) (s : State) : Result := .next (s.setV x (s.readV y))

/-- 8xy1 `OR Vx, Vy` (R103): no flag. -/
def execOrReg (x y : Reg) (s : State) : Result := .next (s.setV x (s.readV x ||| s.readV y))

/-- 8xy2 `AND Vx, Vy` (R104): no flag. -/
def execAndReg (x y : Reg) (s : State) : Result := .next (s.setV x (s.readV x &&& s.readV y))

/-- 8xy3 `XOR Vx, Vy` (R105): no flag. -/
def execXorReg (x y : Reg) (s : State) : Result := .next (s.setV x (s.readV x ^^^ s.readV y))

/-- 8xy4 `ADD Vx, Vy` (R106): VF is the carry. -/
def execAddReg (x y : Reg) (s : State) : Result :=
  .next (s.setResultAndFlag x (addByte (s.readV x) (s.readV y)) (carryFlag (s.readV x) (s.readV y)))

/-- 8xy5 `SUB Vx, Vy` (R107): VF is 1 when Vx is strictly greater. -/
def execSubReg (x y : Reg) (s : State) : Result :=
  .next (s.setResultAndFlag x (subByte (s.readV x) (s.readV y)) (greaterFlag (s.readV x) (s.readV y)))

/-- 8xy6 `SHR Vx` (R108): VF is the old bit 0; `y` takes part in nothing (R58). -/
def execShr (x _y : Reg) (s : State) : Result :=
  .next (s.setResultAndFlag x (shrByte (s.readV x)) (shiftedOutRight (s.readV x)))

/-- 8xy7 `SUBN Vx, Vy` (R109): Vy minus Vx; VF is 1 when Vy is strictly greater. -/
def execSubnReg (x y : Reg) (s : State) : Result :=
  .next (s.setResultAndFlag x (subByte (s.readV y) (s.readV x)) (greaterFlag (s.readV y) (s.readV x)))

/-- 8xyE `SHL Vx` (R110): VF is the old bit 7; `y` takes part in nothing (R58). -/
def execShl (x _y : Reg) (s : State) : Result :=
  .next (s.setResultAndFlag x (shlByte (s.readV x)) (shiftedOutLeft (s.readV x)))

/-- Aaddr `LD I, addr` (R111). -/
def execLdI (addr : Addr) (s : State) : Result := .next (s.setI (addrOperand addr))

end Sys2Proof.Machine
end

