-- ==== Sys2Proof/Machine/NoOp.lean ====
section
/-!
DEFINITION. The no-operations with a diagnostic (45_unimplemented.md). The fields select nothing; they are part of the word
that the event carries (R62, R131).
-/
namespace Sys2Proof.Machine

/-- The shared effect (R131): one diagnostic event with the fetch address and the whole word, and nothing else. -/
def loggedNoOp (word : Word) (s : State) : Result := .next (s.diag ⟨s.pc0, word⟩)

/-- 0nnn `UNKNOWN.0` (R135). -/
def execUnknown0 (addr : Addr) (s : State) : Result := loggedNoOp (encode (.unknown0 addr)) s

/-- 5xyN `UNKNOWN.5` (R136). -/
def execUnknown5 (x y : Reg) (n : Nibble) (s : State) : Result := loggedNoOp (encode (.unknown5 x y n)) s

/-- 8xyN `UNKNOWN.8` (R137). -/
def execUnknown8 (x y : Reg) (n : Nibble) (s : State) : Result := loggedNoOp (encode (.unknown8 x y n)) s

/-- 9xyN `UNKNOWN.9` (R136). -/
def execUnknown9 (x y : Reg) (n : Nibble) (s : State) : Result := loggedNoOp (encode (.unknown9 x y n)) s

/-- Cxkk `UNIMP.C` (R132). -/
def execUnimpC (x : Reg) (kk : Byte) (s : State) : Result := loggedNoOp (encode (.unimpC x kk)) s

/-- Ex.. `UNIMP.E` (R133). -/
def execUnimpE (x : Reg) (kk : Byte) (s : State) : Result := loggedNoOp (encode (.unimpE x kk)) s

/-- Fx.. `UNIMP.F` (R134). -/
def execUnimpF (x : Reg) (kk : Byte) (s : State) : Result := loggedNoOp (encode (.unimpF x kk)) s

end Sys2Proof.Machine
end

