-- ==== Sys2Proof/Machine/Skip.lean ====
section
/-!
DEFINITION. The conditional skips (42_skip.md). On entry PC is already `pc0 + 2`; a taken skip leaves `pc0 + 4` (R75, R94).
-/
namespace Sys2Proof.Machine

/-- Skip the next instruction when the condition holds (R75). -/
def skipIf (condition : Bool) (s : State) : Result := .next (if condition then s.skip else s)

/-- 3xkk `SE Vx, kk` (R90). -/
def execSeImm (x : Reg) (kk : Byte) (s : State) : Result := skipIf (s.readV x == kk) s

/-- 4xkk `SNE Vx, kk` (R91). -/
def execSneImm (x : Reg) (kk : Byte) (s : State) : Result := skipIf (s.readV x != kk) s

/-- 5xy0 `SE Vx, Vy` (R92). -/
def execSeReg (x y : Reg) (s : State) : Result := skipIf (s.readV x == s.readV y) s

/-- 9xy0 `SNE Vx, Vy` (R93). -/
def execSneReg (x y : Reg) (s : State) : Result := skipIf (s.readV x != s.readV y) s

end Sys2Proof.Machine
end

