-- ==== Sys2Proof/Machine/Dispatch.lean ====
section
/-!
DEFINITION. Phase 4 of the step (R75): one arm per instruction. On entry PC is already `pc0 + 2` (R73).
-/
namespace Sys2Proof.Machine

def exec (i : Instr) (s : State) : Host.Outcome State Fault Refusal :=
  match i with
  | .cls => Sys2Proof.Machine.execCls s
  | .ret => Sys2Proof.Machine.execRet s
  | .unknown0 addr => Sys2Proof.Machine.execUnknown0 addr s
  | .jp addr => Sys2Proof.Machine.execJp addr s
  | .call addr => Sys2Proof.Machine.execCall addr s
  | .seImm x kk => Sys2Proof.Machine.execSeImm x kk s
  | .sneImm x kk => Sys2Proof.Machine.execSneImm x kk s
  | .seReg x y => Sys2Proof.Machine.execSeReg x y s
  | .unknown5 x y n => Sys2Proof.Machine.execUnknown5 x y n s
  | .ldImm x kk => Sys2Proof.Machine.execLdImm x kk s
  | .addImm x kk => Sys2Proof.Machine.execAddImm x kk s
  | .ldReg x y => Sys2Proof.Machine.execLdReg x y s
  | .orReg x y => Sys2Proof.Machine.execOrReg x y s
  | .andReg x y => Sys2Proof.Machine.execAndReg x y s
  | .xorReg x y => Sys2Proof.Machine.execXorReg x y s
  | .addReg x y => Sys2Proof.Machine.execAddReg x y s
  | .subReg x y => Sys2Proof.Machine.execSubReg x y s
  | .shr x y => Sys2Proof.Machine.execShr x y s
  | .subnReg x y => Sys2Proof.Machine.execSubnReg x y s
  | .shl x y => Sys2Proof.Machine.execShl x y s
  | .unknown8 x y n => Sys2Proof.Machine.execUnknown8 x y n s
  | .sneReg x y => Sys2Proof.Machine.execSneReg x y s
  | .unknown9 x y n => Sys2Proof.Machine.execUnknown9 x y n s
  | .ldI addr => Sys2Proof.Machine.execLdI addr s
  | .jpV0 addr => Sys2Proof.Machine.execJpV0 addr s
  | .unimpC x kk => Sys2Proof.Machine.execUnimpC x kk s
  | .drw x y n => Sys2Proof.Machine.execDrw x y n s
  | .unimpE x kk => Sys2Proof.Machine.execUnimpE x kk s
  | .unimpF x kk => Sys2Proof.Machine.execUnimpF x kk s

end Sys2Proof.Machine
end

