-- ==== Sys2Proof/Machine/Step.lean ====
section
/-!
DEFINITION. The step (R79): overrun check and fetch, advance, decode, execute; and the host's way to place one instruction.
-/
namespace Sys2Proof.Machine

/-- One step (R70, R79). A fault of any phase commits nothing (R76). -/
def step (s : State) : Host.Outcome State Fault Refusal :=
  match s.fetch with
  | .error f => raise f
  | .ok w => exec (decode w) s.advancePc

/-- The state with the instruction word `w` where the next step fetches: at PC, or, where no instruction can be fetched at
PC, at `LOAD_BASE` with PC set to it, as the host load does (R162, log entry 7). -/
def State.withFetchWord (s : State) (nbits w : Nat) : State :=
  let word : Word := BitVec.ofNat 16 (w % 2 ^ nbits)
  let bytes : List Byte := [word.extractLsb' 8 8, word.extractLsb' 0 8]
  let at' : Nat := if s.pc.toNat < Config.memSize - 1 then s.pc.toNat else Config.loadBase
  { s with mem := s.mem.setBytes at' bytes, pc := BitVec.ofNat 16 at' }

end Sys2Proof.Machine
end

