-- ==== Sys2Proof/Machine/HostPort.lean ====
section
/-!
DEFINITION. The host's operations (70_reset_and_hazards.md section 1). Each is an indivisible transaction between steps, and
a run of the block is a sequence of them (R166, R170).
-/
namespace Sys2Proof.Machine

/-- The timer a timer port names (R169). -/
inductive Timer where
  | delay
  | sound
deriving DecidableEq, Repr

/-- What the observation port can be asked for (R168). -/
inductive ObserveItem where
  | v (r : Reg)
  | i
  | pc
  | sp
  | stackEntry (k : Nat)
  | timer (t : Timer)
  | memByte (a : Nat)
  | pixel (x y : Nat)
deriving DecidableEq, Repr

/-- The host's operations. -/
inductive HostOp where
  | reset
  | load (bytes : List Byte) (base : Nat)
  | step
  | run (n : Nat)
  | displayGet (x y : Nat)
  | displayDump
  | timerGet (t : Timer)
  | timerSet (t : Timer) (value : Byte)
  | observe (item : ObserveItem)
deriving DecidableEq, Repr

/-- The answer of an operation. -/
inductive HostAnswer where
  /-- Accepted, with nothing to return (reset, load, timer set). -/
  | ok
  /-- The request is refused with the name OutOfBounds (R158). -/
  | outOfBounds
  /-- The answer of a step: the fault record, or none for `Ok`, and the diagnostic event, if any (R165). -/
  | stepped (fault : Option Fault) (event : Option DiagEvent)
  /-- The answer of a run: how many steps answered `Ok`, and the fault that ended it, if any (R167). -/
  | ran (okSteps : Nat) (fault : Option Fault)
  | pixel (lit : Bool)
  | rows (dump : List (List Bool))
  | byte (value : Byte)
  | value (value : Nat)
deriving DecidableEq, Repr

/-- The diagnostic event that a step from this state emits, if any (R78). -/
def stepEvent (s : State) : Option DiagEvent :=
  match s.fetch with
  | .error _ => none
  | .ok w => if (decode w).isNoOp then some ⟨s.pc, w⟩ else none

/-- Load (R162, R163): all or nothing. -/
def hostLoad (bytes : List Byte) (base : Nat) (s : State) : HostAnswer × State :=
  match s.mem.write base bytes with
  | some m => (.ok, { s with mem := m, pc := BitVec.ofNat 16 base })
  | none => (.outOfBounds, s)

/-- Step port (R165): a faulting step leaves the state as it was (R76, R146). A refusal does not occur. -/
def hostStep (s : State) : HostAnswer × State :=
  match step s with
  | .next t => (.stepped none (stepEvent s), t)
  | .fault f => (.stepped (some f) none, s)
  | .refused _ => (.stepped none none, s)

/-- `run_for(n)` (R167): the number of steps that answered `Ok`, the fault that ended the run, and the state after. -/
def runFor : Nat → State → Nat × Option Fault × State
  | 0, s => (0, none, s)
  | n + 1, s =>
    match step s with
    | .next t =>
      let r := runFor n t
      (r.1 + 1, r.2.1, r.2.2)
    | .fault f => (0, some f, s)
    | .refused _ => (0, none, s)

/-- Timer get (R169). -/
def timerGet (t : Timer) (s : State) : Byte :=
  match t with
  | .delay => s.dt
  | .sound => s.st

/-- Timer set (R169). -/
def timerSet (t : Timer) (value : Byte) (s : State) : State :=
  match t with
  | .delay => { s with dt := value }
  | .sound => { s with st := value }

/-- Observe (R168): a read-only view of all state; log entry 8 for an item out of range. -/
def observe (s : State) : ObserveItem → Option Nat
  | .v r => some (s.readV r).toNat
  | .i => some s.i.toNat
  | .pc => some s.pc.toNat
  | .sp => some s.sp
  | .stackEntry k => s.stack[k]?.map BitVec.toNat
  | .timer t => some (timerGet t s).toNat
  | .memByte a =>
    match s.mem.read1 a with
    | .ok b => some b.toNat
    | .error _ => none
  | .pixel x y => (s.display.get? x y).map Bool.toNat

/-- One host operation: its answer and the state after (R170). -/
def hostOp (op : HostOp) (s : State) : HostAnswer × State :=
  match op with
  | .reset => (.ok, State.reset)
  | .load bytes base => hostLoad bytes base s
  | .step => hostStep s
  | .run n =>
    let r := runFor n s
    (.ran r.1 r.2.1, r.2.2)
  | .displayGet x y =>
    match s.display.get? x y with
    | some lit => (.pixel lit, s)
    | none => (.outOfBounds, s)
  | .displayDump => (.rows s.display.dump, s)
  | .timerGet t => (.byte (timerGet t s), s)
  | .timerSet t value => (.ok, timerSet t value s)
  | .observe item =>
    match observe s item with
    | some n => (.value n, s)
    | none => (.outOfBounds, s)

/-- The state after a sequence of host operations, in order (R170). -/
def hostRun : List HostOp → State → State
  | [], s => s
  | op :: ops, s => hostRun ops (hostOp op s).2

end Sys2Proof.Machine
end

