-- ==== Sys2Proof/Safety.lean ====
section
/-!
DEFINITION. The terms that statements about the machine are written in: the bounds of R22, a safe run, what a frame keeps,
who writes what, and the bit a sprite puts on a pixel.
-/
namespace Sys2Proof.Machine

/-! ### The invariant -/

/-- The bounds of every reachable state, R22 (a) to (d), and the canonical form of memory (log entry 1). R22 (e) says that VF
is not restricted, so nothing is said of it. -/
abbrev InBounds (s : State) : Prop :=
  s.i.toNat ≤ 0x0FFF ∧ s.pc.toNat ≤ 0x10FE ∧ (∀ a ∈ s.stack, 0x0002 ≤ a.toNat ∧ a.toNat ≤ 0x1000) ∧
    s.sp ≤ Config.stackDepth ∧ s.mem.wf

/-! ### Runs -/

/-- `k` steps that all answer `Ok` lead from `s` to `t`. -/
def StepsOk : Nat → State → State → Prop
  | 0, s, t => s = t
  | k + 1, s, t => ∃ u, step s = .next u ∧ StepsOk k u t

/-- A safe run: `k` steps without a fault (R176). -/
def SafeFor (k : Nat) (s : State) : Prop := ∃ t, StepsOk k s t

/-- A change of the next state of an answer. -/
def mapNext (g : State → State) : Result → Result
  | .next t => .next (g t)
  | .fault f => .fault f
  | .refused r => .refused r

/-- The word that the two bytes at PC make, high byte first (R32). -/
def wordAtPc (s : State) : Word := wordOfBytes (s.mem.byteAt s.pc.toNat) (s.mem.byteAt (s.pc.toNat + 1))

/-! ### Frames -/

/-- Every general register outside `rs` reads as before. -/
def KeepsRegsBut (rs : List Reg) (s t : State) : Prop := ∀ r, r ∉ rs → t.readV r = s.readV r

/-- Every byte of memory reads as before. -/
def KeepsMemory (s t : State) : Prop := ∀ a, t.mem.byteAt a = s.mem.byteAt a

/-- Every pixel is as before. -/
def KeepsDisplay (s t : State) : Prop := ∀ x y, t.display.at x y = s.display.at x y

/-- Both timers are as before. -/
def KeepsTimers (s t : State) : Prop := t.dt = s.dt ∧ t.st = s.st

/-- The frame of an instruction that writes registers only: everything but PC and the registers in `rs` is as before (the
record of events too, which is the model's own, log entry 2). -/
def RegisterFrame (rs : List Reg) (s t : State) : Prop :=
  KeepsRegsBut rs s t ∧ t.i = s.i ∧ t.stack = s.stack ∧ KeepsTimers s t ∧ KeepsMemory s t ∧ KeepsDisplay s t ∧
    t.diagnostics = s.diagnostics

/-- The frame of the display instructions: everything but PC, the display and the registers in `rs` is as before (the record
of events too, log entry 2). -/
def DisplayFrame (rs : List Reg) (s t : State) : Prop :=
  KeepsRegsBut rs s t ∧ t.i = s.i ∧ t.stack = s.stack ∧ KeepsTimers s t ∧ KeepsMemory s t ∧ t.diagnostics = s.diagnostics

/-- The frame of call and return: everything but PC and the call stack is as before (the record of events too, log entry 2).
-/
def StackFrame (s t : State) : Prop :=
  KeepsRegsBut [] s t ∧ t.i = s.i ∧ KeepsTimers s t ∧ KeepsMemory s t ∧ KeepsDisplay s t ∧ t.diagnostics = s.diagnostics

/-- The instruction completes, emits exactly one event with its fetch address and its word, and changes nothing else (R131).
The record of events in the state is the model's own (log entry 2), and so is its order, the newest event first. -/
def LoggedAndNothingElse (i : Instr) (s : State) : Prop :=
  ∃ t, exec i s = .next t ∧ t.diagnostics = ⟨s.pc - 2, encode i⟩ :: s.diagnostics ∧ t.pc = s.pc ∧ t.i = s.i ∧
    t.stack = s.stack ∧ KeepsRegsBut [] s t ∧ KeepsTimers s t ∧ KeepsMemory s t ∧ KeepsDisplay s t

/-! ### Who writes what -/

/-- The instructions that write VF as a side effect (R11). -/
def writesFlag : Instr → Bool
  | .addReg _ _ | .subReg _ _ | .shr _ _ | .subnReg _ _ | .shl _ _ | .drw _ _ _ => true
  | .cls | .ret | .unknown0 _ | .jp _ | .call _ | .seImm _ _ | .sneImm _ _ | .seReg _ _ | .unknown5 _ _ _ | .ldImm _ _
  | .addImm _ _ | .ldReg _ _ | .orReg _ _ | .andReg _ _ | .xorReg _ _ | .unknown8 _ _ _ | .sneReg _ _ | .unknown9 _ _ _
  | .ldI _ | .jpV0 _ | .unimpC _ _ | .unimpE _ _ | .unimpF _ _ => false

/-- The general register an instruction names as its destination (R10): `x` of 6xkk, 7xkk and the 8xy forms of the table. -/
def destination : Instr → Option Reg
  | .ldImm x _ | .addImm x _ | .ldReg x _ | .orReg x _ | .andReg x _ | .xorReg x _ | .addReg x _ | .subReg x _ | .shr x _
  | .subnReg x _ | .shl x _ => some x
  | .cls | .ret | .unknown0 _ | .jp _ | .call _ | .seImm _ _ | .sneImm _ _ | .seReg _ _ | .unknown5 _ _ _ | .unknown8 _ _ _
  | .sneReg _ _ | .unknown9 _ _ _ | .ldI _ | .jpV0 _ | .unimpC _ _ | .drw _ _ _ | .unimpE _ _ | .unimpF _ _ => none

/-- The instructions that can leave PC elsewhere than at `pc0 + 2` (R13): the transfers and the skips. -/
def redirectsPc : Instr → Bool
  | .ret | .jp _ | .call _ | .jpV0 _ | .seImm _ _ | .sneImm _ _ | .seReg _ _ | .sneReg _ _ => true
  | .cls | .unknown0 _ | .unknown5 _ _ _ | .ldImm _ _ | .addImm _ _ | .ldReg _ _ | .orReg _ _ | .andReg _ _ | .xorReg _ _
  | .addReg _ _ | .subReg _ _ | .shr _ _ | .subnReg _ _ | .shl _ _ | .unknown8 _ _ _ | .unknown9 _ _ _ | .ldI _
  | .unimpC _ _ | .drw _ _ _ | .unimpE _ _ | .unimpF _ _ => false

/-- The words of the no-operation encodings, by their nibbles: families C, E and F whole, and what the table leaves over of
families 0, 5, 8 and 9 (R132 to R137). -/
def noOpWord (w : Word) : Bool :=
  match (w.extractLsb' 12 4).toNat with
  | 0x0 => w != 0x00E0 && w != 0x00EE
  | 0x5 | 0x9 => w.extractLsb' 0 4 != 0
  | 0x8 => decide ((w.extractLsb' 0 4).toNat ∈ [0x8, 0x9, 0xA, 0xB, 0xC, 0xD, 0xF])
  | 0xC | 0xE | 0xF => true
  | _ => false

/-! ### Sprites -/

/-- The bit that `DRW Vx, Vy, n` composites onto the pixel in column `xx` and row `yy`: the bit of the sprite's row byte when
the pixel lies under the sprite, anchored at `(Vx mod 64, Vy mod 32)` and clipped by the display's edges, else 0 (R125,
R128). -/
def spriteBit (s : State) (x y : Reg) (n : Nibble) (xx : Fin 64) (yy : Fin 32) : Bool :=
  let x0 := (s.readV x).toNat % 64
  let y0 := (s.readV y).toNat % 32
  decide (x0 ≤ xx.val ∧ xx.val < x0 + 8 ∧ y0 ≤ yy.val ∧ yy.val < y0 + n.toNat) &&
    (s.mem.byteAt (s.i.toNat + (yy.val - y0))).getLsbD (7 - (xx.val - x0))

end Sys2Proof.Machine
end

