-- ==== Sys2Proof/Certificates/Slice0/Obligations.lean ====
section
/-!
DEFINITION. The statements for the provers. Throughout, `exec i s` is phase 4 of a step: PC is already `pc0 + 2`, where
`pc0` is the address of the instruction (R73), so `t.pc = s.pc` says that the instruction leaves PC at `pc0 + 2`, and
`s.pc - 2` is `pc0`.
-/

open Sys2Proof Sys2Proof.Machine

/-! ### Encoding -/

/-- Every well-formed instruction is read back from its own word, with every operand (R51, R52, R55). -/
def Obligations.DecodeOfEncodeIsTheInstruction : Prop :=
  ∀ i : Instr, i.wf = true → decode (encode i) = i

/-- Every word decodes to exactly one well-formed instruction, whose word it is (R54). -/
def Obligations.EveryWordIsOneInstruction : Prop :=
  ∀ w : Word, (decode w).wf = true ∧ encode (decode w) = w ∧ ∀ i : Instr, i.wf = true → encode i = w → i = decode w

/-- The decoder follows the opcode map: the exact rows exclude each other, a word that one of them selects is that row's
instruction, and every other word is its family's fallback, a no-operation (R54). Rests on the spec's decision D9 (R57, log
entry 3, unsafe): that a word no exact row selects is its family's no-operation is the spec's own choice. -/
def Obligations.DecodeFollowsTheOpcodeMap : Prop :=
  exactRows.Pairwise (fun r q => ∀ w : Word, ¬ (r.selects w = true ∧ q.selects w = true)) ∧
  ∀ w : Word,
    (∀ r ∈ exactRows, r.selects w = true → (decode w).mnemonic = r.1) ∧
    ((∀ r ∈ exactRows, r.selects w = false) →
      ∃ r ∈ fallbackRows, r.selects w = true ∧ (decode w).mnemonic = r.1 ∧ (decode w).isNoOp = true)

/-- Words written out from the opcode map and the worked examples of the spec, one or more for each family. The words of the
unknown encodings rest on the spec's decision D9 (log entry 3). -/
def Obligations.WrittenOutWordsDecode : Prop :=
  decode 0x00E0 = .cls ∧ decode 0x00EE = .ret ∧ decode 0x0123 = .unknown0 0x123 ∧ decode 0x1ABC = .jp 0xABC ∧
  decode 0x2208 = .call 0x208 ∧ decode 0x3C7F = .seImm 12 0x7F ∧ decode 0x4342 = .sneImm 3 0x42 ∧
  decode 0x5AB0 = .seReg 10 11 ∧ decode 0x5AB1 = .unknown5 10 11 0x1 ∧ decode 0x6005 = .ldImm 0 0x05 ∧
  decode 0x70FF = .addImm 0 0xFF ∧ decode 0x8AB4 = .addReg 10 11 ∧ decode 0x8AFE = .shl 10 15 ∧
  decode 0x8ABF = .unknown8 10 11 0xF ∧ decode 0x9AB0 = .sneReg 10 11 ∧ decode 0xA210 = .ldI 0x210 ∧
  decode 0xBFFF = .jpV0 0xFFF ∧ decode 0xC1FF = .unimpC 1 0xFF ∧ decode 0xD12F = .drw 1 2 0xF ∧
  decode 0xE19E = .unimpE 1 0x9E ∧ decode 0xF10A = .unimpF 1 0x0A

/-- Two bytes, the first the high one, are one instruction; a third byte is never consumed and one byte is too few (R50,
R59). That fewer than two bytes are refused by that name is the model's choice (log entry 11), not a rule of the spec. -/
def Obligations.AnInstructionIsTwoBytes : Prop :=
  (∀ (i : Instr) (rest : List Byte), i.wf = true →
    (encodeBytes i).length = 2 ∧ decodeBytes (encodeBytes i ++ rest) = .ok (i, rest)) ∧
  (∀ bytes : List Byte, bytes.length < 2 ↔ decodeBytes bytes = .error .fewerThanTwoBytes)

/-! ### Memory reads, fetch and the step -/

/-- The two reads of memory: bounds, no wrap, and the byte at the lower address as the high byte (R31, R32). -/
def Obligations.MemoryReadsAreBoundedAndBigEndian : Prop :=
  ∀ (m : Memory) (a : Nat),
    (a < 4096 → m.read1 a = .ok (m.byteAt a)) ∧ (4096 ≤ a → m.read1 a = .error a) ∧
    (a < 4095 → ∃ w, m.read2 a = .ok w ∧ w.toNat = (m.byteAt a).toNat * 256 + (m.byteAt (a + 1)).toNat) ∧
    (4095 ≤ a → m.read2 a = .error a)

/-- A step overruns at or past the end of memory, is out of bounds at the last byte, and anywhere else, odd addresses
included, executes the decoded word of the two bytes at PC with PC advanced by 2 (R71, R72, R73). Rests on the spec's
decision D4 (log entry 3). -/
def Obligations.StepRunsTheDecodedInstruction : Prop :=
  ∀ s : State,
    (4096 ≤ s.pc.toNat → step s = .fault (.programCounterOverrun s.pc)) ∧
    (s.pc.toNat = 4095 → step s = .fault (.outOfBounds s.pc none 4095)) ∧
    (s.pc.toNat < 4095 →
      step s = exec (decode (s.mem.byteAt s.pc.toNat ++ s.mem.byteAt (s.pc.toNat + 1))) { s with pc := s.pc + 2 })

/-- Where the two bytes at PC are those of a well-formed instruction, the step is that instruction's meaning with PC advanced
by 2. -/
def Obligations.StepRunsTheEncodedInstruction : Prop :=
  ∀ (s : State) (i : Instr), i.wf = true → s.pc.toNat < 4095 →
    [s.mem.byteAt s.pc.toNat, s.mem.byteAt (s.pc.toNat + 1)] = encodeBytes i →
    step s = exec i { s with pc := s.pc + 2 }

/-- A step faults under the spec's conditions and under no other, with the record of the spec, one fault at most (R145,
R156). Rests on the spec's decisions D3, D4, D8, D16, D24 and D26 (log entry 3). That a stack of more than 16 entries, which
no run reaches, does not fault is log entry 6. -/
def Obligations.StepFaultsExactlyOnTheFourConditions : Prop :=
  ∀ (s : State) (f : Fault), step s = .fault f ↔
    (4096 ≤ s.pc.toNat ∧ f = .programCounterOverrun s.pc) ∨
    (s.pc.toNat = 4095 ∧ f = .outOfBounds s.pc none 4095) ∨
    (s.pc.toNat < 4095 ∧ wordAtPc s = 0x00EE ∧ s.stack = [] ∧ f = .stackUnderflow s.pc 0x00EE) ∨
    (s.pc.toNat < 4095 ∧ fieldOp (wordAtPc s) = 0x2 ∧ s.stack.length = 16 ∧ f = .stackOverflow s.pc (wordAtPc s)) ∨
    (s.pc.toNat < 4095 ∧ fieldOp (wordAtPc s) = 0xD ∧ 0 < (fieldN (wordAtPc s)).toNat ∧
      4096 < s.i.toNat + (fieldN (wordAtPc s)).toNat ∧
      f = .outOfBounds s.pc (some (wordAtPc s)) (max s.i.toNat 4096))

/-- No step refuses: every word of memory has a meaning (R54, R56). -/
def Obligations.NoStepRefuses : Prop := ∀ (s : State) (r : Refusal), step s ≠ .refused r

/-- A faulting step commits nothing: the state after is the state before, the record names its PC, stepping again gives the
same fault, and a run cannot get past it (R76, R146, R147; log entry 9 says how the state after a fault is given). Rests on
the spec's decision D5 (log entry 3). -/
def Obligations.AFaultingStepCommitsNothing : Prop :=
  ∀ (s : State) (f : Fault), step s = .fault f →
    hostStep s = (.stepped (some f) none, s) ∧ f.pc = s.pc ∧ hostStep (hostStep s).2 = hostStep s ∧
    ∀ n, runFor (n + 1) s = (0, some f, s)

/-! ### Invariant -/

/-- The bounds of R22 and the canonical form of memory hold after every step from a state in which they hold. The canonical
form is the model's own (log entry 1). The bound on SP rests on the spec's decision D3 (log entry 3). -/
def Obligations.StepKeepsTheBounds : Prop := ∀ s t : State, InBounds s → step s = .next t → InBounds t

/-- The state after reset meets the invariant. -/
def Obligations.ResetMeetsTheBounds : Prop := InBounds State.reset

/-- Every operation of the host keeps the invariant, so it holds after every sequence of them from reset (R20, R22). Rests on
the spec's decisions D2, D3 and D15 (log entry 3). -/
def Obligations.HostOperationsKeepTheBounds : Prop :=
  (∀ (op : HostOp) (s : State), InBounds s → InBounds (hostOp op s).2) ∧ ∀ ops : List HostOp, InBounds (hostRun ops State.reset)

/-! ### Rules about the whole machine -/

/-- A general register changes only as the destination an instruction names, or, VF, as the flag of a flag-writing
instruction, which then leaves 0x00 or 0x01 in it (R10, R11). -/
def Obligations.RegistersChangeOnlyAsDestinationOrFlag : Prop :=
  ∀ (i : Instr) (s t : State), exec i s = .next t →
    (∀ r : Reg, t.readV r ≠ s.readV r → destination i = some r ∨ (writesFlag i = true ∧ r = VF)) ∧
    (writesFlag i = true → t.readV VF = 0x00 ∨ t.readV VF = 0x01)

/-- Each other component has its writers: `I` Aaddr, the stack call and return, the display clear and draw, the diagnostic
output the no-operations; no instruction writes memory or a timer (R12, R14, R16, R17, R33, R120). -/
def Obligations.EachComponentHasItsWriters : Prop :=
  ∀ (i : Instr) (s t : State), exec i s = .next t →
    (t.i ≠ s.i → ∃ a, i = .ldI a) ∧
    (t.stack ≠ s.stack → i = .ret ∨ ∃ a, i = .call a) ∧
    (t.display ≠ s.display → i = .cls ∨ ∃ x y n, i = .drw x y n) ∧
    (t.diagnostics ≠ s.diagnostics → i.isNoOp = true) ∧
    t.mem = s.mem ∧ t.dt = s.dt ∧ t.st = s.st

/-- How each instruction leaves PC (R13). -/
def Obligations.EachInstructionLeavesPcAsListed : Prop :=
  ∀ (i : Instr) (s t : State), exec i s = .next t →
    (∀ a, i = .jp a ∨ i = .call a → t.pc.toNat = a.toNat) ∧
    (∀ a, i = .jpV0 a → t.pc.toNat = a.toNat + (s.readV 0).toNat) ∧
    (i = .ret → s.stack.getLast? = some t.pc) ∧
    (∀ x kk, i = .seImm x kk → t.pc = if s.readV x = kk then s.pc + 2 else s.pc) ∧
    (∀ x kk, i = .sneImm x kk → t.pc = if s.readV x = kk then s.pc else s.pc + 2) ∧
    (∀ x y, i = .seReg x y → t.pc = if s.readV x = s.readV y then s.pc + 2 else s.pc) ∧
    (∀ x y, i = .sneReg x y → t.pc = if s.readV x = s.readV y then s.pc else s.pc + 2) ∧
    (redirectsPc i = false → t.pc = s.pc)

/-- The timers are neither read nor written by a step: with other timer values it does the same and leaves those (R16). Rests
on the spec's decision D12 (log entry 3). -/
def Obligations.TimersAreNeitherReadNorWritten : Prop :=
  ∀ (s : State) (a b : Byte),
    step { s with dt := a, st := b } = mapNext (fun t => { t with dt := a, st := b }) (step s)

/-- The recorded diagnostic events (the model's own record, log entry 2) are never read: with another record a step does the
same, and adds its own event, if any, to that record (R144). Rests on the spec's decision D10 (log entry 3). -/
def Obligations.DiagnosticsAreNeverRead : Prop :=
  ∀ (s : State) (l : List DiagEvent),
    step { s with diagnostics := l } = mapNext (fun t => { t with diagnostics := (stepEvent s).toList ++ l }) (step s)

/-- A step emits exactly one event, with its fetch address and its word, when the decoded operation is a no-operation
encoding, and none otherwise; a faulting step emits none (R78). The record in the state is the model's own (log entry 2).
Rests on the spec's decisions D9 and D10 (log entry 3). -/
def Obligations.OneDiagnosticForEachNoOperation : Prop :=
  (∀ s t : State, step s = .next t →
    (noOpWord (wordAtPc s) = true →
      t.diagnostics = ⟨s.pc, wordAtPc s⟩ :: s.diagnostics ∧
      (hostStep s).1 = .stepped none (some ⟨s.pc, wordAtPc s⟩)) ∧
    (noOpWord (wordAtPc s) = false →
      t.diagnostics = s.diagnostics ∧ (hostStep s).1 = .stepped none none)) ∧
  ∀ (s : State) (f : Fault), step s = .fault f → (hostStep s).1 = .stepped (some f) none

/-! ### Control transfer -/

/-- 00EE: underflow on an empty stack with nothing changed, otherwise the newest entry goes to PC and is removed (R80). -/
def Obligations.ReturnPopsIntoPc : Prop :=
  ∀ s : State, decode 0x00EE = .ret ∧
    (s.stack = [] → exec .ret s = .fault (.stackUnderflow (s.pc - 2) 0x00EE)) ∧
    (∀ (older : List Word) (a : Word), s.stack = older ++ [a] →
      ∃ t, exec .ret s = .next t ∧ t.pc = a ∧ t.stack = older ∧ t.sp + 1 = s.sp ∧ StackFrame s t)

/-- 1addr: PC is the address, and nothing else changes (R81). -/
def Obligations.JumpGoesToItsAddress : Prop :=
  ∀ (addr : Addr) (s : State), decode (0x1#4 ++ addr) = .jp addr ∧
    ∃ t, exec (.jp addr) s = .next t ∧ t.pc.toNat = addr.toNat ∧ RegisterFrame [] s t

/-- 2addr: overflow on a full stack, otherwise the advanced PC is pushed and PC is the address (R82). Rests on the spec's
decision D3 (log entry 3). That a stack of more than 16 entries, which no run reaches, does not fault is log entry 6. -/
def Obligations.CallPushesTheAdvancedPc : Prop :=
  ∀ (addr : Addr) (s : State), decode (0x2#4 ++ addr) = .call addr ∧
    (s.sp = 16 → exec (.call addr) s = .fault (.stackOverflow (s.pc - 2) (0x2#4 ++ addr))) ∧
    (s.sp ≠ 16 → ∃ t, exec (.call addr) s = .next t ∧ t.stack = s.stack ++ [s.pc] ∧ t.sp = s.sp + 1 ∧
      t.pc.toNat = addr.toNat ∧ StackFrame s t)

/-- Baddr: PC is the address plus V0, not reduced, and nothing else changes (R83). -/
def Obligations.OffsetJumpAddsV0 : Prop :=
  ∀ (addr : Addr) (s : State), decode (0xB#4 ++ addr) = .jpV0 addr ∧
    ∃ t, exec (.jpV0 addr) s = .next t ∧ t.pc.toNat = addr.toNat + (s.readV 0).toNat ∧ RegisterFrame [] s t

/-- A call followed by a matching return, with anything done in between that leaves the stack as the call left it, restores
PC to the value right after the call's fetch and the stack to what it was (R80, R82). That SP other than 16 takes in stacks
of more than 16 entries, which no run reaches, is log entry 6. -/
def Obligations.ReturnMatchesItsCall : Prop :=
  ∀ (addr : Addr) (s : State), s.sp ≠ 16 →
    ∃ t, exec (.call addr) s = .next t ∧
      ∀ u : State, u.stack = t.stack → ∃ v, exec .ret u = .next v ∧ v.pc = s.pc ∧ v.stack = s.stack

/-- A jump to its own address answers `Ok` and changes nothing, as often as it is stepped (R176). Rests on the spec's
decision D22 (log entry 3). -/
def Obligations.JumpToItselfStaysInPlace : Prop :=
  ∀ (s : State) (addr : Addr), s.pc.toNat < 4095 → wordAtPc s = 0x1#4 ++ addr → addr.toNat = s.pc.toNat →
    step s = .next s ∧ ∀ k, SafeFor k s

/-! ### Skips -/

/-- 3xkk and 4xkk: PC gets a further 2 exactly when the register equals, or differs from, `kk`, and nothing else changes
(R90, R91). -/
def Obligations.ImmediateSkipsCompareVx : Prop :=
  ∀ (x : Reg) (kk : Byte) (s : State),
    decode (0x3#4 ++ regBits x ++ kk) = .seImm x kk ∧ decode (0x4#4 ++ regBits x ++ kk) = .sneImm x kk ∧
    (∃ t, exec (.seImm x kk) s = .next t ∧ (s.readV x = kk → t.pc = s.pc + 2) ∧ (s.readV x ≠ kk → t.pc = s.pc) ∧
      RegisterFrame [] s t) ∧
    (∃ t, exec (.sneImm x kk) s = .next t ∧ (s.readV x ≠ kk → t.pc = s.pc + 2) ∧ (s.readV x = kk → t.pc = s.pc) ∧
      RegisterFrame [] s t)

/-- 5xy0 and 9xy0: PC gets a further 2 exactly when the registers are equal, or differ, and nothing else changes; with
another low nibble the word is neither (R92, R93). Rests on the spec's decision D9 (log entry 3). -/
def Obligations.RegisterSkipsCompareVxVy : Prop :=
  ∀ (x y : Reg) (s : State),
    decode (0x5#4 ++ regBits x ++ regBits y ++ 0x0#4) = .seReg x y ∧
    decode (0x9#4 ++ regBits x ++ regBits y ++ 0x0#4) = .sneReg x y ∧
    (∀ n : Nibble, n ≠ 0 → decode (0x5#4 ++ regBits x ++ regBits y ++ n) = .unknown5 x y n ∧
      decode (0x9#4 ++ regBits x ++ regBits y ++ n) = .unknown9 x y n) ∧
    (∃ t, exec (.seReg x y) s = .next t ∧ (s.readV x = s.readV y → t.pc = s.pc + 2) ∧
      (s.readV x ≠ s.readV y → t.pc = s.pc) ∧ RegisterFrame [] s t) ∧
    (∃ t, exec (.sneReg x y) s = .next t ∧ (s.readV x ≠ s.readV y → t.pc = s.pc + 2) ∧
      (s.readV x = s.readV y → t.pc = s.pc) ∧ RegisterFrame [] s t)

/-! ### Loads and the ALU -/

/-- 6xkk (R100). -/
def Obligations.LoadImmediateWritesVx : Prop :=
  ∀ (x : Reg) (kk : Byte) (s : State), decode (0x6#4 ++ regBits x ++ kk) = .ldImm x kk ∧
    ∃ t, exec (.ldImm x kk) s = .next t ∧ t.readV x = kk ∧ t.pc = s.pc ∧ RegisterFrame [x] s t

/-- 7xkk: the sum modulo 256, and no flag: VF is in the frame unless it is the destination (R101). -/
def Obligations.AddImmediateWrapsWithoutFlag : Prop :=
  ∀ (x : Reg) (kk : Byte) (s : State), decode (0x7#4 ++ regBits x ++ kk) = .addImm x kk ∧
    ∃ t, exec (.addImm x kk) s = .next t ∧ (t.readV x).toNat = ((s.readV x).toNat + kk.toNat) % 256 ∧ t.pc = s.pc ∧
      RegisterFrame [x] s t

/-- 8xy0: a copy, and no flag (R102). -/
def Obligations.RegisterLoadCopiesVy : Prop :=
  ∀ (x y : Reg) (s : State), decode (0x8#4 ++ regBits x ++ regBits y ++ 0x0#4) = .ldReg x y ∧
    ∃ t, exec (.ldReg x y) s = .next t ∧ t.readV x = s.readV y ∧ t.pc = s.pc ∧ RegisterFrame [x] s t

/-- 8xy1, 8xy2, 8xy3: the logic operations, bit by bit, and no flag: VF is in the frame unless it is the destination (R103,
R104, R105). -/
def Obligations.LogicOperationsWithoutFlag : Prop :=
  ∀ (x y : Reg) (s : State),
    decode (0x8#4 ++ regBits x ++ regBits y ++ 0x1#4) = .orReg x y ∧
    decode (0x8#4 ++ regBits x ++ regBits y ++ 0x2#4) = .andReg x y ∧
    decode (0x8#4 ++ regBits x ++ regBits y ++ 0x3#4) = .xorReg x y ∧
    (∃ t, exec (.orReg x y) s = .next t ∧ t.pc = s.pc ∧ RegisterFrame [x] s t ∧
      ∀ k < 8, (t.readV x).getLsbD k = ((s.readV x).getLsbD k || (s.readV y).getLsbD k)) ∧
    (∃ t, exec (.andReg x y) s = .next t ∧ t.pc = s.pc ∧ RegisterFrame [x] s t ∧
      ∀ k < 8, (t.readV x).getLsbD k = ((s.readV x).getLsbD k && (s.readV y).getLsbD k)) ∧
    (∃ t, exec (.xorReg x y) s = .next t ∧ t.pc = s.pc ∧ RegisterFrame [x] s t ∧
      ∀ k < 8, (t.readV x).getLsbD k = ((s.readV x).getLsbD k != (s.readV y).getLsbD k))

/-- 8xy4: the sum modulo 256 in Vx and the carry in VF, both of the operands before; with x = 15 VF holds the carry (R106).
At x = 15 and y = 15 it rests on the spec's decision D6 (R112, log entry 3, unsafe): old operands are read, and the flag is
written last. -/
def Obligations.AddWritesSumAndCarry : Prop :=
  ∀ (x y : Reg) (s : State), decode (0x8#4 ++ regBits x ++ regBits y ++ 0x4#4) = .addReg x y ∧
    ∃ t, exec (.addReg x y) s = .next t ∧
      (x ≠ VF → (t.readV x).toNat = ((s.readV x).toNat + (s.readV y).toNat) % 256) ∧
      t.readV VF = (if (s.readV x).toNat + (s.readV y).toNat > 255 then 0x01 else 0x00) ∧ t.pc = s.pc ∧
      RegisterFrame [x, VF] s t

/-- 8xy5: Vx minus Vy modulo 256 in Vx and, in VF, whether Vx was strictly greater (R107). At x = 15 and y = 15 it rests on
the spec's decision D6 (R112, log entry 3, unsafe): old operands are read, and the flag is written last. -/
def Obligations.SubWritesDifferenceAndGreater : Prop :=
  ∀ (x y : Reg) (s : State), decode (0x8#4 ++ regBits x ++ regBits y ++ 0x5#4) = .subReg x y ∧
    ∃ t, exec (.subReg x y) s = .next t ∧
      (x ≠ VF → (t.readV x).toNat = (256 + (s.readV x).toNat - (s.readV y).toNat) % 256) ∧
      t.readV VF = (if (s.readV x).toNat > (s.readV y).toNat then 0x01 else 0x00) ∧ t.pc = s.pc ∧
      RegisterFrame [x, VF] s t

/-- 8xy6: Vx shifted right by one in Vx and its old bit 0 in VF; `y` plays no part (R108). At x = 15 it rests on the spec's
decision D6 (R112, log entry 3, unsafe): the flag is written last. -/
def Obligations.ShiftRightWritesTheLowBit : Prop :=
  ∀ (x y : Reg) (s : State), decode (0x8#4 ++ regBits x ++ regBits y ++ 0x6#4) = .shr x y ∧
    ∃ t, exec (.shr x y) s = .next t ∧
      (x ≠ VF → (t.readV x).toNat = (s.readV x).toNat / 2) ∧ (t.readV VF).toNat = (s.readV x).toNat % 2 ∧ t.pc = s.pc ∧
      RegisterFrame [x, VF] s t

/-- 8xy7: Vy minus Vx modulo 256 in Vx and, in VF, whether Vy was strictly greater (R109). At x = 15 and y = 15 it rests on
the spec's decision D6 (R112, log entry 3, unsafe): old operands are read, and the flag is written last. -/
def Obligations.SubnWritesReverseDifference : Prop :=
  ∀ (x y : Reg) (s : State), decode (0x8#4 ++ regBits x ++ regBits y ++ 0x7#4) = .subnReg x y ∧
    ∃ t, exec (.subnReg x y) s = .next t ∧
      (x ≠ VF → (t.readV x).toNat = (256 + (s.readV y).toNat - (s.readV x).toNat) % 256) ∧
      t.readV VF = (if (s.readV y).toNat > (s.readV x).toNat then 0x01 else 0x00) ∧ t.pc = s.pc ∧
      RegisterFrame [x, VF] s t

/-- 8xyE: Vx shifted left by one modulo 256 in Vx and its old bit 7 in VF; `y` plays no part (R110). At x = 15 it rests on
the spec's decision D6 (R112, log entry 3, unsafe): the flag is written last. -/
def Obligations.ShiftLeftWritesTheHighBit : Prop :=
  ∀ (x y : Reg) (s : State), decode (0x8#4 ++ regBits x ++ regBits y ++ 0xE#4) = .shl x y ∧
    ∃ t, exec (.shl x y) s = .next t ∧
      (x ≠ VF → (t.readV x).toNat = (s.readV x).toNat * 2 % 256) ∧ (t.readV VF).toNat = (s.readV x).toNat / 128 ∧
      t.pc = s.pc ∧ RegisterFrame [x, VF] s t

/-- Aaddr: `I` is the address, and nothing else changes (R111). -/
def Obligations.LoadIndexWritesI : Prop :=
  ∀ (addr : Addr) (s : State), decode (0xA#4 ++ addr) = .ldI addr ∧
    ∃ t, exec (.ldI addr) s = .next t ∧ t.i.toNat = addr.toNat ∧ t.pc = s.pc ∧ KeepsRegsBut [] s t ∧
      t.stack = s.stack ∧ KeepsTimers s t ∧ KeepsMemory s t ∧ KeepsDisplay s t ∧ t.diagnostics = s.diagnostics

/-! ### Display -/

/-- The engine's XOR composite: the addressed pixel by XOR, collision when both were lit, every other pixel as before, and a
bounds error off the display (R122). -/
def Obligations.EngineCompositesByXor : Prop :=
  ∀ (d : Display) (x y : Nat) (value : Bool),
    (∀ (hx : x < 64) (hy : y < 32), ∃ e, d.drawXor x y value = some (e, d.at ⟨x, hx⟩ ⟨y, hy⟩ && value) ∧
      e.at ⟨x, hx⟩ ⟨y, hy⟩ = (d.at ⟨x, hx⟩ ⟨y, hy⟩ != value) ∧
      ∀ (p : Fin 64) (q : Fin 32), ¬ (p.val = x ∧ q.val = y) → e.at p q = d.at p q) ∧
    (64 ≤ x ∨ 32 ≤ y → d.drawXor x y value = none)

/-- 00E0: every pixel off and nothing else, VF included, changed (R124). -/
def Obligations.ClearTurnsEveryPixelOff : Prop :=
  ∀ s : State, decode 0x00E0 = .cls ∧
    ∃ t, exec .cls s = .next t ∧ (∀ x y, t.display.at x y = false) ∧ t.pc = s.pc ∧ DisplayFrame [] s t

/-- Dxyn: out of bounds, with nothing drawn, when the sprite's bytes leave memory; otherwise every pixel is composited once
with the sprite's bit there, VF says whether a lit bit met a lit pixel, and nothing else changes (R126). Rests on the spec's
decisions D6, D7, D8 and D23 (log entry 3). -/
def Obligations.DrawCompositesTheSprite : Prop :=
  ∀ (x y : Reg) (n : Nibble) (s : State),
    decode (0xD#4 ++ regBits x ++ regBits y ++ n) = .drw x y n ∧
    (0 < n.toNat ∧ 4096 < s.i.toNat + n.toNat → exec (.drw x y n) s =
      .fault (.outOfBounds (s.pc - 2) (some (0xD#4 ++ regBits x ++ regBits y ++ n)) (max s.i.toNat 4096))) ∧
    (n.toNat = 0 ∨ s.i.toNat + n.toNat ≤ 4096 → ∃ t, exec (.drw x y n) s = .next t ∧
      (∀ p q, t.display.at p q = (s.display.at p q != spriteBit s x y n p q)) ∧
      ((∃ p q, spriteBit s x y n p q = true ∧ s.display.at p q = true) → t.readV VF = 0x01) ∧
      ((∀ p q, spriteBit s x y n p q = true → s.display.at p q = false) → t.readV VF = 0x00) ∧
      t.pc = s.pc ∧ DisplayFrame [VF] s t)

/-- Drawing the same sprite twice at the same place, wherever the second draw stands, restores the display; the first draw
collides exactly where a lit bit met a lit pixel, the second exactly where a lit bit met an unlit one before the first; and
no pixel outside the sprite's rectangle changes (R130). VF must not be a coordinate, since the first draw writes it. Rests on
the spec's decisions D7, D8 and D23 (log entry 3). -/
def Obligations.DrawingTwiceRestoresTheDisplay : Prop :=
  ∀ (x y : Reg) (n : Nibble) (s : State) (pc2 : Word), x ≠ VF → y ≠ VF → (n.toNat = 0 ∨ s.i.toNat + n.toNat ≤ 4096) →
    ∃ t u, exec (.drw x y n) s = .next t ∧ exec (.drw x y n) { t with pc := pc2 } = .next u ∧
      (∀ p q, u.display.at p q = s.display.at p q) ∧
      (t.readV VF = 0x01 ↔ ∃ p q, spriteBit s x y n p q = true ∧ s.display.at p q = true) ∧
      (u.readV VF = 0x01 ↔ ∃ p q, spriteBit s x y n p q = true ∧ s.display.at p q = false) ∧
      ∀ (p : Fin 64) (q : Fin 32),
        p.val < (s.readV x).toNat % 64 ∨ (s.readV x).toNat % 64 + 7 < p.val ∨
        q.val < (s.readV y).toNat % 32 ∨ (s.readV y).toNat % 32 + n.toNat ≤ q.val →
        t.display.at p q = s.display.at p q

/-! ### The no-operations -/

/-- Each of the seven no-operation forms completes, emits one event with its fetch address and its word, and changes nothing
else (R131). Rests on the spec's decision D10 (log entry 3). It ranges over ill-formed terms too, whose no-operation, with
the word of another instruction in its event, is the model's choice (log entry 12); no word decodes to one. -/
def Obligations.NoOperationsOnlyEmitADiagnostic : Prop :=
  ∀ (s : State) (addr : Addr) (x y : Reg) (n : Nibble) (kk : Byte),
    LoggedAndNothingElse (.unknown0 addr) s ∧ LoggedAndNothingElse (.unknown5 x y n) s ∧
    LoggedAndNothingElse (.unknown8 x y n) s ∧ LoggedAndNothingElse (.unknown9 x y n) s ∧
    LoggedAndNothingElse (.unimpC x kk) s ∧ LoggedAndNothingElse (.unimpE x kk) s ∧ LoggedAndNothingElse (.unimpF x kk) s

/-- Which words are no-operations: families C, E and F whole, and what is left over of families 0, 5, 8 and 9; each only adds
its event (R132 to R137) to the model's record of events (log entry 2). Rests on the spec's decisions D9 and D10 (log entry
3). -/
def Obligations.UnlistedWordsAreLoggedNoOperations : Prop :=
  ∀ w : Word, (noOpWord w = true ↔ (decode w).isNoOp = true) ∧
    (noOpWord w = true →
      ∀ s : State, exec (decode w) s = .next { s with diagnostics := ⟨s.pc - 2, w⟩ :: s.diagnostics })

/-- In memory that reads as zero everywhere a run from PC = 0 makes 2048 `Ok` steps, one event each, up to PC = 0x1000, and
its next step overruns; nothing but PC and the events changes (R135). The record of events is the model's own (log entry 2).
-/
def Obligations.ZeroMemoryRunsToTheOverrun : Prop :=
  ∀ (s : State) (n : Nat), (∀ a, s.mem.byteAt a = 0x00) → s.pc = 0x0000 → 2048 < n →
    ∃ t, runFor n s = (2048, some (.programCounterOverrun 0x1000), t) ∧
      t.diagnostics.length = s.diagnostics.length + 2048 ∧
      { t with diagnostics := s.diagnostics } = { s with pc := 0x1000 }

/-! ### Reset and the host -/

/-- Everything is zero after reset, and the host's reset gives that state, whatever the state before (R21, R160; that it also
empties the record of events is the model's choice, log entry 2). -/
def Obligations.ResetZeroesEverything : Prop :=
  (∀ r, State.reset.readV r = 0x00) ∧ State.reset.i = 0x0000 ∧ State.reset.pc = 0x0000 ∧ State.reset.stack = [] ∧
  State.reset.sp = 0 ∧ State.reset.dt = 0x00 ∧ State.reset.st = 0x00 ∧ (∀ a, State.reset.mem.byteAt a = 0x00) ∧
  (∀ x y, State.reset.display.at x y = false) ∧ ∀ s, hostOp .reset s = (.ok, State.reset)

/-- A load that fits puts each byte in its place, sets PC to the base and changes nothing else; one that does not fit is
refused and changes nothing (R162, R163). Memory is assumed in its canonical form (the model's own, log entry 1), which every
operation keeps. Rests on the spec's decisions D2 and D15 (log entry 3). -/
def Obligations.LoadPlacesTheImageOrNothing : Prop :=
  ∀ (bytes : List Byte) (base : Nat) (s : State), s.mem.wf →
    (base + bytes.length ≤ 4096 → ∃ t, hostOp (.load bytes base) s = (.ok, t) ∧ t.pc.toNat = base ∧
      (∀ (k : Nat) (hk : k < bytes.length), t.mem.byteAt (base + k) = bytes[k]) ∧
      (∀ a, a < base ∨ base + bytes.length ≤ a → t.mem.byteAt a = s.mem.byteAt a) ∧
      { t with mem := s.mem, pc := s.pc } = s) ∧
    (4096 < base + bytes.length → hostOp (.load bytes base) s = (.outOfBounds, s))

/-- A run of `n` makes steps until `n` of them answered `Ok` or one faulted, and answers how many and which fault; its state
is the state after the last `Ok` step (R167). -/
def Obligations.RunStepsUntilTheCountOrAFault : Prop :=
  ∀ (n : Nat) (s : State), ∃ (k : Nat) (f : Option Fault) (t : State),
    hostOp (.run n) s = (.ran k f, t) ∧ k ≤ n ∧ StepsOk k s t ∧ (f = none → k = n) ∧
    (∀ g, f = some g → k < n ∧ step t = .fault g)

/-- The display read port: a pixel inside the display, a refusal outside it, and the dump as 32 rows from the top of 64
pixels from the left; none changes the state (R123). Rests on the spec's decision D25 (log entry 3). -/
def Obligations.DisplayReadPortGivesThePixels : Prop :=
  ∀ s : State,
    (∀ (x y : Nat) (hx : x < 64) (hy : y < 32),
      hostOp (.displayGet x y) s = (.pixel (s.display.at ⟨x, hx⟩ ⟨y, hy⟩), s)) ∧
    (∀ x y : Nat, 64 ≤ x ∨ 32 ≤ y → hostOp (.displayGet x y) s = (.outOfBounds, s)) ∧
    ∃ rows : List (List Bool), hostOp .displayDump s = (.rows rows, s) ∧ rows.length = 32 ∧
      ∀ (x : Fin 64) (y : Fin 32), ∃ row, rows[y.val]? = some row ∧ row.length = 64 ∧ row[x.val]? = some (s.display.at x y)

/-- The timer ports: a set stores the byte and changes nothing else; a get reads the timer it names and changes nothing
(R169). Rests on the spec's decision D12 (log entry 3). -/
def Obligations.TimerPortsStoreAndRead : Prop :=
  ∀ (s : State) (value : Byte),
    hostOp (.timerSet .delay value) s = (.ok, { s with dt := value }) ∧
    hostOp (.timerSet .sound value) s = (.ok, { s with st := value }) ∧
    hostOp (.timerGet .delay) s = (.byte s.dt, s) ∧ hostOp (.timerGet .sound) s = (.byte s.st, s)

/-- The observation port shows every component and changes nothing (R168). Rests on the spec's decision D17 (log entry 3). -/
def Obligations.ObservationShowsAllAndChangesNothing : Prop :=
  ∀ s : State,
    (∀ item, (hostOp (.observe item) s).2 = s) ∧
    (∀ r, observe s (.v r) = some (s.readV r).toNat) ∧ observe s .i = some s.i.toNat ∧ observe s .pc = some s.pc.toNat ∧
    observe s .sp = some s.stack.length ∧ (∀ (k : Nat) (hk : k < s.stack.length), observe s (.stackEntry k) = some s.stack[k].toNat) ∧
    observe s (.timer .delay) = some s.dt.toNat ∧ observe s (.timer .sound) = some s.st.toNat ∧
    (∀ a, a < 4096 → observe s (.memByte a) = some (s.mem.byteAt a).toNat) ∧
    (∀ (x : Fin 64) (y : Fin 32), observe s (.pixel x y) = some (s.display.at x y).toNat)
end

