-- ==== Sys2Proof/Laws/Decode.lean ====
section
/-!
SUPPORT. What each field of a word reads after each format wrote it, and how a word is put together again from its fields
(R51, R52).
-/
namespace Sys2Proof

@[simp] theorem regBits_toFin (r : Reg) : (regBits r).toFin = r := rfl

@[simp] theorem regBits_of_toFin (b : Nibble) : regBits b.toFin = b := rfl

/-! ### The bits of each format -/

theorem formatA_getLsbD (op : Nibble) (addr : Addr) (k : Nat) :
    (formatA op addr).getLsbD k = if k < 12 then addr.getLsbD k else op.getLsbD (k - 12) :=
  BitVec.getLsbD_append

theorem formatXK_getLsbD (op : Nibble) (x : Reg) (kk : Byte) (k : Nat) :
    (formatXK op x kk).getLsbD k =
      if k < 8 then kk.getLsbD k else if k < 12 then (regBits x).getLsbD (k - 8) else op.getLsbD (k - 12) := by
  refine (BitVec.getLsbD_append (x := op ++ regBits x) (y := kk)).trans ?_
  rw [BitVec.getLsbD_append]
  by_cases h8 : k < 8
  · simp [h8]
  · by_cases h12 : k < 12
    · simp [h8, h12, show k - 8 < 4 by omega]
    · simp [h8, h12, show ¬ k - 8 < 4 by omega, show k - 8 - 4 = k - 12 by omega]

theorem formatXY_getLsbD (op : Nibble) (x y : Reg) (n : Nibble) (k : Nat) :
    (formatXY op x y n).getLsbD k =
      if k < 4 then n.getLsbD k else if k < 8 then (regBits y).getLsbD (k - 4)
      else if k < 12 then (regBits x).getLsbD (k - 8) else op.getLsbD (k - 12) := by
  refine (BitVec.getLsbD_append (x := (op ++ regBits x) ++ regBits y) (y := n)).trans ?_
  rw [BitVec.getLsbD_append, BitVec.getLsbD_append]
  by_cases h4 : k < 4
  · simp [h4]
  · by_cases h8 : k < 8
    · simp [h4, h8, show k - 4 < 4 by omega]
    · by_cases h12 : k < 12
      · simp [h4, h8, h12, show ¬ k - 4 < 4 by omega, show k - 8 < 4 by omega, show k - 4 - 4 = k - 8 by omega]
      · simp [h4, h8, h12, show ¬ k - 4 < 4 by omega, show ¬ k - 4 - 4 < 4 by omega,
          show k - 4 - 4 - 4 = k - 12 by omega]

theorem wordOfBytes_getLsbD (hi lo : Byte) (k : Nat) :
    (wordOfBytes hi lo).getLsbD k = if k < 8 then lo.getLsbD k else hi.getLsbD (k - 8) :=
  BitVec.getLsbD_append

/-! ### The fields of each format -/

/-- A slice of a word is a value when its bits are. -/
theorem slice_eq {lo len : Nat} {w : Word} {b : BitVec len} (h : ∀ k < len, w.getLsbD (lo + k) = b.getLsbD k) :
    w.extractLsb' lo len = b := by
  apply BitVec.eq_of_getLsbD_eq
  intro k hk
  rw [BitVec.getLsbD_extractLsb', h k hk]
  simp [hk]

@[simp] theorem fieldOp_formatA (op : Nibble) (addr : Addr) : fieldOp (formatA op addr) = op :=
  slice_eq fun k _ => by simp [formatA_getLsbD]

@[simp] theorem fieldAddr_formatA (op : Nibble) (addr : Addr) : fieldAddr (formatA op addr) = addr :=
  slice_eq fun k hk => by simp [formatA_getLsbD, hk]

@[simp] theorem fieldOp_formatXK (op : Nibble) (x : Reg) (kk : Byte) : fieldOp (formatXK op x kk) = op :=
  slice_eq fun k _ => by simp [formatXK_getLsbD, show ¬ 12 + k < 8 by omega]

@[simp] theorem fieldX_formatXK (op : Nibble) (x : Reg) (kk : Byte) : fieldX (formatXK op x kk) = x := by
  have h : (formatXK op x kk).extractLsb' 8 4 = regBits x :=
    slice_eq fun k hk => by simp [formatXK_getLsbD, show 8 + k < 12 by omega]
  rw [fieldX, h, regBits_toFin]

@[simp] theorem fieldKk_formatXK (op : Nibble) (x : Reg) (kk : Byte) : fieldKk (formatXK op x kk) = kk :=
  slice_eq fun k hk => by simp [formatXK_getLsbD, hk]

@[simp] theorem fieldOp_formatXY (op : Nibble) (x y : Reg) (n : Nibble) : fieldOp (formatXY op x y n) = op :=
  slice_eq fun k _ => by
    simp [formatXY_getLsbD, show ¬ 12 + k < 4 by omega, show ¬ 12 + k < 8 by omega]

@[simp] theorem fieldX_formatXY (op : Nibble) (x y : Reg) (n : Nibble) : fieldX (formatXY op x y n) = x := by
  have h : (formatXY op x y n).extractLsb' 8 4 = regBits x :=
    slice_eq fun k hk => by simp [formatXY_getLsbD, show ¬ 8 + k < 4 by omega, show 8 + k < 12 by omega]
  rw [fieldX, h, regBits_toFin]

@[simp] theorem fieldY_formatXY (op : Nibble) (x y : Reg) (n : Nibble) : fieldY (formatXY op x y n) = y := by
  have h : (formatXY op x y n).extractLsb' 4 4 = regBits y :=
    slice_eq fun k hk => by simp [formatXY_getLsbD, show 4 + k < 8 by omega]
  rw [fieldY, h, regBits_toFin]

@[simp] theorem fieldN_formatXY (op : Nibble) (x y : Reg) (n : Nibble) : fieldN (formatXY op x y n) = n :=
  slice_eq fun k hk => by simp [formatXY_getLsbD, hk]

/-! ### A word from its fields -/

theorem formatA_of_fields (w : Word) : formatA (fieldOp w) (fieldAddr w) = w := by
  apply BitVec.eq_of_getLsbD_eq
  intro k hk
  rw [formatA_getLsbD, fieldAddr, fieldOp, BitVec.getLsbD_extractLsb', BitVec.getLsbD_extractLsb']
  split
  · next h => simp [h]
  · next h => simp [show k - 12 < 4 by omega, show 12 + (k - 12) = k by omega]

theorem formatXK_of_fields (w : Word) : formatXK (fieldOp w) (fieldX w) (fieldKk w) = w := by
  apply BitVec.eq_of_getLsbD_eq
  intro k hk
  rw [formatXK_getLsbD, fieldKk, fieldX, fieldOp, regBits_of_toFin]
  simp only [BitVec.getLsbD_extractLsb']
  split
  · next h => simp [h]
  · split
    · simp [show k - 8 < 4 by omega, show 8 + (k - 8) = k by omega]
    · simp [show k - 12 < 4 by omega, show 12 + (k - 12) = k by omega]

theorem formatXY_of_fields (w : Word) : formatXY (fieldOp w) (fieldX w) (fieldY w) (fieldN w) = w := by
  apply BitVec.eq_of_getLsbD_eq
  intro k hk
  rw [formatXY_getLsbD, fieldN, fieldY, fieldX, fieldOp, regBits_of_toFin, regBits_of_toFin]
  simp only [BitVec.getLsbD_extractLsb']
  split
  · next h => simp [h]
  · split
    · simp [show k - 4 < 4 by omega, show 4 + (k - 4) = k by omega]
    · split
      · simp [show k - 8 < 4 by omega, show 8 + (k - 8) = k by omega]
      · simp [show k - 12 < 4 by omega, show 12 + (k - 12) = k by omega]

/-! ### The masks of the opcode map (R55) -/

/-- The mask 0xF000 keeps `op`. -/
theorem and_mask_F000 (w : Word) : w &&& 0xF000 = formatA (fieldOp w) 0x000 := by
  conv_lhs => rw [← formatA_of_fields w]
  apply BitVec.eq_of_getLsbD_eq
  intro k hk
  rw [BitVec.getLsbD_and, formatA_getLsbD, formatA_getLsbD]
  interval_cases k <;> simp

/-- The mask 0xF00F keeps `op` and `n`. -/
theorem and_mask_F00F (w : Word) : w &&& 0xF00F = formatXY (fieldOp w) 0 0 (fieldN w) := by
  conv_lhs => rw [← formatXY_of_fields w]
  apply BitVec.eq_of_getLsbD_eq
  intro k hk
  rw [BitVec.getLsbD_and, formatXY_getLsbD, formatXY_getLsbD]
  interval_cases k <;> simp [regBits]

/-- The mask 0xFFFF keeps the word. -/
theorem and_mask_FFFF (w : Word) : w &&& 0xFFFF = w := BitVec.and_allOnes

/-! ### The bytes of a word -/

/-- The two bytes of a word make the word again (R32, R50). -/
theorem wordOfBytes_of_bytes (w : Word) : wordOfBytes (w.extractLsb' 8 8) (w.extractLsb' 0 8) = w := by
  apply BitVec.eq_of_getLsbD_eq
  intro k hk
  rw [wordOfBytes_getLsbD]
  simp only [BitVec.getLsbD_extractLsb']
  split
  · next h => simp [h]
  · simp [show k - 8 < 8 by omega, show 8 + (k - 8) = k by omega]

/-- The word of two bytes as a number: the byte at the lower address is the high byte (R32). -/
theorem wordOfBytes_toNat (hi lo : Byte) : (wordOfBytes hi lo).toNat = hi.toNat * 256 + lo.toNat := by
  refine (BitVec.toNat_append hi lo).trans ?_
  rw [← Nat.shiftLeft_add_eq_or_of_lt lo.isLt, Nat.shiftLeft_eq]

/-! ### A word from the fields that select it and its operands -/

theorem formatXK_of_op (w : Word) (op : Nibble) (h : fieldOp w = op) :
    formatXK op (fieldX w) (fieldKk w) = w := h ▸ formatXK_of_fields w

theorem formatA_of_op (w : Word) (op : Nibble) (h : fieldOp w = op) : formatA op (fieldAddr w) = w :=
  h ▸ formatA_of_fields w

theorem formatXY_of_op (w : Word) (op n : Nibble) (h : fieldOp w = op) (hn : fieldN w = n) :
    formatXY op (fieldX w) (fieldY w) n = w := h ▸ hn ▸ formatXY_of_fields w

end Sys2Proof
end

