-- ==== Sys2Proof/Laws/Display.lean ====
section
/-!
SUPPORT. The laws of the display: one pixel of each engine operation, and the draw routine in closed form (which bit it
composites onto each pixel, and when it reports a collision).
-/
namespace Sys2Proof.Machine

/-- Two displays with the same pixels are equal. -/
theorem Display.ext_at {d e : Display} (h : ∀ x y, d.at x y = e.at x y) : d = e := by
  apply Vector.ext
  intro y hy
  apply Vector.ext
  intro x hx
  exact h ⟨x, hx⟩ ⟨y, hy⟩

@[simp] theorem Display.at_off (x : Fin 64) (y : Fin 32) : Display.off.at x y = false := by
  simp [Display.at, Display.off]

@[simp] theorem Display.at_clear (d : Display) (x : Fin 64) (y : Fin 32) : d.clear.at x y = false := Display.at_off x y

/-- The XOR composite changes the addressed pixel only (R122). -/
theorem Display.at_xorAt (d : Display) (x p : Fin 64) (y q : Fin 32) (bit : Bool) :
    (d.xorAt x y bit).1.at p q = Bool.xor (d.at p q) (decide (p = x ∧ q = y) && bit) := by
  by_cases hq : y = q
  · subst hq
    by_cases hp : x = p
    · subst hp
      simp [Display.xorAt, Display.at]
    · have hv : x.val ≠ p.val := fun h => hp (Fin.ext h)
      simp [Display.xorAt, Display.at, hv, Ne.symm hp]
  · have hv : y.val ≠ q.val := fun h => hq (Fin.ext h)
    simp [Display.xorAt, Display.at, hv, Ne.symm hq]

/-- The composite collides when a lit sprite bit meets a lit pixel (R122). -/
theorem Display.xorAt_collided (d : Display) (x : Fin 64) (y : Fin 32) (bit : Bool) :
    (d.xorAt x y bit).2 = (d.at x y && bit) := rfl

/-- One sprite pixel: it changes the pixel at its coordinates, if the display has one. -/
theorem drawPixel_at (xx yy : Nat) (bit : Bool) (c : Canvas) (p : Fin 64) (q : Fin 32) :
    (drawPixel xx yy bit c).1.at p q = Bool.xor (c.1.at p q) (decide (p.val = xx ∧ q.val = yy) && bit) := by
  unfold drawPixel
  split
  · next h =>
    simp only [Display.at_xorAt, Fin.ext_iff]
  · next h =>
    have hpq : ¬ (p.val = xx ∧ q.val = yy) := fun hpq => h ⟨hpq.1 ▸ p.isLt, hpq.2 ▸ q.isLt⟩
    simp [hpq]

/-- One sprite pixel: it collides when its bit is lit and falls on a lit pixel of the display (R127). -/
theorem drawPixel_collided (xx yy : Nat) (bit : Bool) (c : Canvas) :
    (drawPixel xx yy bit c).2 = true ↔
      c.2 = true ∨ ∃ (p : Fin 64) (q : Fin 32), p.val = xx ∧ q.val = yy ∧ bit = true ∧ c.1.at p q = true := by
  unfold drawPixel
  split
  · next h =>
    simp only [Display.xorAt_collided, Bool.or_eq_true, Bool.and_eq_true]
    constructor
    · rintro (h2 | ⟨hat, hbit⟩)
      · exact .inl h2
      · exact .inr ⟨⟨xx, h.1⟩, ⟨yy, h.2⟩, rfl, rfl, hbit, hat⟩
    · rintro (h2 | ⟨p, q, rfl, rfl, hbit, hat⟩)
      · exact .inl h2
      · exact .inr ⟨hat, hbit⟩
  · next h =>
    constructor
    · exact .inl
    · rintro (h2 | ⟨p, q, rfl, rfl, -, -⟩)
      · exact h2
      · exact absurd ⟨p.isLt, q.isLt⟩ h

/-- The columns of one row: the bit composited onto each pixel (R126, R128). -/
theorem drawColumns_at (b : Byte) (x0 yy c left : Nat) (canvas : Canvas) (p : Fin 64) (q : Fin 32) :
    (drawColumns b x0 yy c left canvas).1.at p q =
      Bool.xor (canvas.1.at p q)
        (decide (q.val = yy ∧ x0 + c ≤ p.val ∧ p.val < x0 + c + left) && spriteColumn b (p.val - x0)) := by
  induction left generalizing c canvas with
  | zero =>
    have h : ¬ (q.val = yy ∧ x0 + c ≤ p.val ∧ p.val < x0 + c + 0) := by omega
    rw [decide_eq_false h]
    simp [drawColumns]
  | succ left ih =>
    rw [drawColumns, ih, drawPixel_at]
    by_cases hq : q.val = yy
    · by_cases hp : p.val = x0 + c
      · simp [hq, hp]
      · have h1 : (x0 + (c + 1) ≤ p.val ∧ p.val < x0 + (c + 1) + left) ↔
            (x0 + c ≤ p.val ∧ p.val < x0 + c + (left + 1)) := by omega
        simp [hq, hp, h1]
    · simp [hq]

/-- The columns of one row: when some pixel collides, judged on the display before the row (R126, R127). -/
theorem drawColumns_collided (b : Byte) (x0 yy c left : Nat) (canvas : Canvas) :
    (drawColumns b x0 yy c left canvas).2 = true ↔
      canvas.2 = true ∨ ∃ (p : Fin 64) (q : Fin 32), (q.val = yy ∧ x0 + c ≤ p.val ∧ p.val < x0 + c + left) ∧
        spriteColumn b (p.val - x0) = true ∧ canvas.1.at p q = true := by
  induction left generalizing c canvas with
  | zero =>
    simp only [drawColumns]
    constructor
    · exact .inl
    · rintro (h | ⟨p, q, h, -⟩)
      · exact h
      · omega
  | succ left ih =>
    rw [drawColumns, ih, drawPixel_collided]
    simp only [drawPixel_at]
    constructor
    · rintro ((h | ⟨p, q, hp, hq, hbit, hat⟩) | ⟨p, q, hin, hbit, hat⟩)
      · exact .inl h
      · refine .inr ⟨p, q, by omega, ?_, hat⟩
        rw [hp, Nat.add_sub_cancel_left]; exact hbit
      · refine .inr ⟨p, q, by omega, hbit, ?_⟩
        have hne : ¬ (p.val = x0 + c ∧ q.val = yy) := by omega
        simpa [hne] using hat
    · rintro (h | ⟨p, q, hin, hbit, hat⟩)
      · exact .inl (.inl h)
      · by_cases hp : p.val = x0 + c
        · refine .inl (.inr ⟨p, q, hp, hin.1, ?_, hat⟩)
          rw [hp, Nat.add_sub_cancel_left] at hbit; exact hbit
        · refine .inr ⟨p, q, by omega, hbit, ?_⟩
          have hne : ¬ (p.val = x0 + c ∧ q.val = yy) := fun h => hp h.1
          simpa [hne] using hat

/-- The bit that sprite rows anchored at column `x0` and row `y0` put on pixel `(p, q)`: 0 outside the sprite. -/
def rowsBit (rows : List Byte) (x0 y0 p q : Nat) : Bool :=
  decide (x0 ≤ p ∧ p < x0 + 8 ∧ y0 ≤ q ∧ q < y0 + rows.length) && spriteColumn (rows.getD (q - y0) 0) (p - x0)

theorem rowsBit_cons (b : Byte) (rows : List Byte) (x0 y0 p q : Nat) :
    rowsBit (b :: rows) x0 y0 p q =
      ((decide (q = y0 ∧ x0 ≤ p ∧ p < x0 + 8) && spriteColumn b (p - x0)) || rowsBit rows x0 (y0 + 1) p q) := by
  unfold rowsBit
  by_cases hq : q = y0
  · subst hq
    simp
  · by_cases hlt : y0 < q
    · have h1 : q - y0 = (q - (y0 + 1)) + 1 := by omega
      rw [h1]
      have h2 : (y0 ≤ q ∧ q < y0 + (rows.length + 1)) ↔ (y0 + 1 ≤ q ∧ q < y0 + 1 + rows.length) := by omega
      simp [hq, h2]
    · have h1 : ¬ y0 ≤ q := by omega
      have h2 : ¬ y0 + 1 ≤ q := by omega
      simp [hq, h1, h2]

/-- A row's pixels and those of the rows below it are different pixels. -/
theorem rowsBit_below (rows : List Byte) (x0 y0 p q : Nat) (h : q = y0) : rowsBit rows x0 (y0 + 1) p q = false := by
  have h2 : ¬ y0 + 1 ≤ q := by omega
  simp [rowsBit, h2]

/-- The sprite's rows in closed form: each pixel is composited once with its bit (R126). -/
theorem drawRows_at (rows : List Byte) (x0 y0 : Nat) (canvas : Canvas) (p : Fin 64) (q : Fin 32) :
    (drawRows x0 y0 rows canvas).1.at p q = Bool.xor (canvas.1.at p q) (rowsBit rows x0 y0 p q) := by
  induction rows generalizing y0 canvas with
  | nil =>
    have h : ¬ (x0 ≤ p.val ∧ p.val < x0 + 8 ∧ y0 ≤ q.val ∧ q.val < y0 + ([] : List Byte).length) := by
      simp only [List.length_nil]
      omega
    rw [rowsBit, decide_eq_false h]
    simp [drawRows]
  | cons b rows ih =>
    rw [drawRows, ih, drawColumns_at, rowsBit_cons]
    by_cases hq : q.val = y0
    · simp [hq, rowsBit_below]
    · simp [hq]

/-- The sprite's rows in closed form: when any pixel collides, judged on the display before the draw (R126, R127). -/
theorem drawRows_collided (rows : List Byte) (x0 y0 : Nat) (canvas : Canvas) :
    (drawRows x0 y0 rows canvas).2 = true ↔
      canvas.2 = true ∨ ∃ (p : Fin 64) (q : Fin 32), rowsBit rows x0 y0 p q = true ∧ canvas.1.at p q = true := by
  induction rows generalizing y0 canvas with
  | nil =>
    simp only [drawRows]
    constructor
    · exact .inl
    · rintro (h | ⟨p, q, h, -⟩)
      · exact h
      · simp [rowsBit] at h; omega
  | cons b rows ih =>
    rw [drawRows, ih, drawColumns_collided]
    simp only [drawColumns_at, rowsBit_cons]
    constructor
    · rintro ((h | ⟨p, q, hin, hbit, hat⟩) | ⟨p, q, hbit, hat⟩)
      · exact .inl h
      · refine .inr ⟨p, q, ?_, hat⟩
        have hin' : q.val = y0 ∧ x0 ≤ p.val ∧ p.val < x0 + 8 := by omega
        simp [hin', hbit]
      · refine .inr ⟨p, q, by simp [hbit], ?_⟩
        by_cases hq : q.val = y0
        · rw [rowsBit_below rows x0 y0 p q hq] at hbit; cases hbit
        · simpa [hq] using hat
    · rintro (h | ⟨p, q, hbit, hat⟩)
      · exact .inl (.inl h)
      · by_cases hq : q.val = y0
        · rw [rowsBit_below rows x0 y0 p q hq] at hbit
          simp only [Bool.or_false, Bool.and_eq_true, decide_eq_true_eq] at hbit
          exact .inl (.inr ⟨p, q, by omega, hbit.2, hat⟩)
        · refine .inr ⟨p, q, ?_, ?_⟩
          · simpa [hq] using hbit
          · simpa [hq] using hat

/-- The draw routine in closed form: its pixels. -/
theorem drawSprite_at (d : Display) (vx vy : Byte) (rows : List Byte) (p : Fin 64) (q : Fin 32) :
    (drawSprite d vx vy rows).1.at p q = Bool.xor (d.at p q) (rowsBit rows (anchorX vx) (anchorY vy) p q) :=
  drawRows_at ..

/-- The draw routine in closed form: its collision flag. -/
theorem drawSprite_collided (d : Display) (vx vy : Byte) (rows : List Byte) :
    (drawSprite d vx vy rows).2 = true ↔
      ∃ (p : Fin 64) (q : Fin 32), rowsBit rows (anchorX vx) (anchorY vy) p q = true ∧ d.at p q = true := by
  rw [drawSprite, drawRows_collided]
  simp

/-- The read-out gives the pixel of a coordinate on the display, and nothing off it (R123). -/
theorem Display.get?_eq (d : Display) (x y : Nat) :
    d.get? x y = if h : x < 64 ∧ y < 32 then some (d.at ⟨x, h.1⟩ ⟨y, h.2⟩) else none := rfl

end Sys2Proof.Machine
end

