-- ==== Sys2Proof/Laws/Memory.lean ====
section
/-!
SUPPORT. The laws of memory: a read after a write, the canonical form is kept, and what each read can answer.
-/
namespace Sys2Proof.Machine

/-! ### The canonical form -/

theorem Memory.wf_nil : Memory.wf [] := by simp [Memory.wf]

theorem Memory.wf_cons {c : Host.Cell} {m : Memory} :
    Memory.wf (c :: m) ↔
      (∀ d ∈ m, c.1 < d.1) ∧ c.1 < Config.memSize ∧ c.2 ≠ Config.unlistedByte ∧ Memory.wf m := by
  simp only [Memory.wf, List.pairwise_cons, List.forall_mem_cons]
  tauto

/-- An address below every listed one reads as an unlisted address does. -/
theorem Memory.byteAt_of_below {m : Memory} {a : Nat} (h : ∀ d ∈ m, a < d.1) : m.byteAt a = Config.unlistedByte := by
  induction m with
  | nil => rfl
  | cons c m ih =>
    obtain ⟨k, b⟩ := c
    have hk : a < k := h (k, b) (by simp)
    rw [Memory.byteAt, if_neg (by omega)]
    exact ih fun d hd => h d (by simp [hd])

/-- A write lists no address but the old ones and its own. -/
theorem Memory.mem_setByte {m : Memory} {a : Nat} {b : Byte} {d : Host.Cell} (h : d ∈ m.setByte a b) :
    d ∈ m ∨ d.1 = a := by
  induction m with
  | nil =>
    simp only [Memory.setByte] at h
    split at h <;> simp_all
  | cons c m ih =>
    obtain ⟨k, c⟩ := c
    simp only [Memory.setByte] at h
    split at h
    · split at h <;> simp_all
      rcases h with h | h | h <;> simp_all
    · split at h
      · split at h
        · simp_all
        · rcases List.mem_cons.mp h with h | h <;> simp_all
      · rcases List.mem_cons.mp h with h | h
        · simp_all
        · rcases ih h with h | h <;> simp_all

/-- Writing one byte inside the address space keeps the canonical form. -/
theorem Memory.wf_setByte {m : Memory} {a : Nat} {b : Byte} (hm : m.wf) (ha : a < Config.memSize) :
    (m.setByte a b).wf := by
  induction m with
  | nil =>
    simp only [Memory.setByte]
    split
    · exact hm
    · next hb => exact Memory.wf_cons.mpr ⟨by simp, ha, hb, hm⟩
  | cons c m ih =>
    obtain ⟨k, c⟩ := c
    obtain ⟨hlow, hk, hc, hm'⟩ := Memory.wf_cons.mp hm
    simp only [Memory.setByte]
    split
    · next hak =>
      split
      · exact hm
      · next hb =>
        refine Memory.wf_cons.mpr ⟨fun d hd => ?_, ha, hb, hm⟩
        rcases List.mem_cons.mp hd with rfl | hd
        · exact hak
        · exact Nat.lt_trans hak (hlow d hd)
    · split
      · next heq =>
        split
        · exact hm'
        · next hb => exact Memory.wf_cons.mpr ⟨heq ▸ hlow, ha, hb, hm'⟩
      · next hlt hne =>
        refine Memory.wf_cons.mpr ⟨fun d hd => ?_, hk, hc, ih hm'⟩
        rcases Memory.mem_setByte hd with hd | hd
        · exact hlow d hd
        · simp only [] at *
          omega

/-- Writing bytes inside the address space keeps the canonical form. -/
theorem Memory.wf_setBytes {m : Memory} {a : Nat} {bytes : List Byte} (hm : m.wf)
    (ha : a + bytes.length ≤ Config.memSize) : (m.setBytes a bytes).wf := by
  induction bytes generalizing m a with
  | nil => exact hm
  | cons b bytes ih =>
    simp only [List.length_cons] at ha
    exact ih (Memory.wf_setByte hm (by omega)) (by omega)

/-! ### Reads after writes -/

/-- A read after a write, in canonical memory: the byte written at its address, the old byte everywhere else. -/
theorem Memory.byteAt_setByte {m : Memory} {a c : Nat} {b : Byte} (hm : m.wf) :
    (m.setByte a b).byteAt c = if c = a then b else m.byteAt c := by
  induction m with
  | nil =>
    rw [Memory.setByte]
    split
    · next hb => rw [hb]; split <;> rfl
    · by_cases hc : c = a
      · subst hc; simp [Memory.byteAt]
      · rw [if_neg hc]
        exact if_neg (Ne.symm hc)
  | cons d m ih =>
    obtain ⟨k, d⟩ := d
    obtain ⟨hlow, -, -, hm'⟩ := Memory.wf_cons.mp hm
    simp only [Memory.setByte]
    split
    · next hak =>
      split
      · next hb =>
        by_cases hc : c = a
        · subst hc
          rw [if_pos rfl, hb, Memory.byteAt, if_neg (by omega)]
          exact Memory.byteAt_of_below fun d hd => Nat.lt_trans hak (hlow d hd)
        · rw [if_neg hc]
      · by_cases hc : c = a
        · subst hc; simp [Memory.byteAt]
        · rw [if_neg hc, Memory.byteAt, if_neg (Ne.symm hc)]
    · split
      · next heq =>
        subst heq
        split
        · next hb =>
          by_cases hc : c = a
          · subst hc
            rw [if_pos rfl, hb]
            exact Memory.byteAt_of_below hlow
          · rw [if_neg hc, Memory.byteAt, if_neg (Ne.symm hc)]
        · by_cases hc : c = a
          · subst hc; simp [Memory.byteAt]
          · simp [Memory.byteAt, hc, Ne.symm hc]
      · next hlt hne =>
        by_cases hc : k = c
        · subst hc
          rw [Memory.byteAt, if_pos rfl, if_neg (Ne.symm hne), Memory.byteAt, if_pos rfl]
        · rw [Memory.byteAt, if_neg hc, ih hm', Memory.byteAt, if_neg hc]

/-- Reads after writing bytes one after another: the bytes written in their range, the old bytes outside it. -/
theorem Memory.byteAt_setBytes {m : Memory} {a c : Nat} {bytes : List Byte} (hm : m.wf)
    (ha : a + bytes.length ≤ Config.memSize) :
    (m.setBytes a bytes).byteAt c = if h : a ≤ c ∧ c < a + bytes.length then bytes[c - a]'(by omega) else m.byteAt c := by
  induction bytes generalizing m a with
  | nil =>
    simp only [Memory.setBytes, List.length_nil, Nat.add_zero]
    rw [dif_neg (by omega)]
  | cons b bytes ih =>
    simp only [List.length_cons] at ha
    rw [Memory.setBytes, ih (Memory.wf_setByte hm (by omega)) (by omega), Memory.byteAt_setByte hm]
    by_cases hc : c = a
    · subst hc
      rw [dif_neg (by omega), if_pos rfl, dif_pos (by simp)]
      simp
    · by_cases hin : a + 1 ≤ c ∧ c < a + 1 + bytes.length
      · rw [dif_pos hin, dif_pos (by simp only [List.length_cons]; omega)]
        rw [List.getElem_cons, dif_neg (by omega)]
        congr 1
      · rw [dif_neg hin, if_neg hc, dif_neg (by simp only [List.length_cons]; omega)]

/-! ### The reads and the write as the spec gives them -/

theorem Memory.read1_of_lt (m : Memory) {a : Nat} (h : a < Config.memSize) : m.read1 a = .ok (m.byteAt a) := if_pos h

theorem Memory.read1_of_ge (m : Memory) {a : Nat} (h : Config.memSize ≤ a) : m.read1 a = .error a :=
  if_neg (by omega)

theorem Memory.read2_of_lt (m : Memory) {a : Nat} (h : a < Config.memSize - 1) :
    m.read2 a = .ok (wordOfBytes (m.byteAt a) (m.byteAt (a + 1))) := if_pos h

theorem Memory.read2_of_ge (m : Memory) {a : Nat} (h : Config.memSize - 1 ≤ a) : m.read2 a = .error a :=
  if_neg (by omega)

/-- A range of reads that stays inside memory gives its bytes (R129). -/
theorem Memory.readRange_ok (m : Memory) {a n : Nat} (h : n = 0 ∨ a + n ≤ Config.memSize) :
    m.readRange a n = .ok ((List.range n).map fun r => m.byteAt (a + r)) := by
  induction n generalizing a with
  | zero => rfl
  | succ n ih =>
    rw [Memory.readRange, Memory.read1_of_lt m (by omega)]
    simp only []
    rw [ih (by omega), List.range_succ_eq_map]
    simp [Nat.add_comm, Nat.add_left_comm]

/-- A range of reads that leaves memory fails at the lowest offending address (R129). -/
theorem Memory.readRange_error (m : Memory) {a n : Nat} (hn : 0 < n) (h : Config.memSize < a + n) :
    m.readRange a n = .error (max a Config.memSize) := by
  induction n generalizing a with
  | zero => omega
  | succ n ih =>
    rw [Memory.readRange]
    by_cases ha : a < Config.memSize
    · rw [Memory.read1_of_lt m ha]
      simp only []
      rw [ih (by omega) (by omega), Nat.max_eq_right (by omega), Nat.max_eq_right (by omega)]
    · rw [Memory.read1_of_ge m (by omega), Nat.max_eq_left (by omega)]

/-- A range of reads fails exactly when it leaves memory. -/
theorem Memory.readRange_eq_error {m : Memory} {a n e : Nat} (h : m.readRange a n = .error e) :
    0 < n ∧ Config.memSize < a + n ∧ e = max a Config.memSize := by
  by_cases hr : n = 0 ∨ a + n ≤ Config.memSize
  · rw [Memory.readRange_ok m hr] at h; cases h
  · rw [Memory.readRange_error m (by omega) (by omega)] at h
    exact ⟨by omega, by omega, by injection h with h; exact h.symm⟩

/-- The write as R33 gives it: inside the capacity, and then the bytes stand in their range and canonical form is kept. -/
theorem Memory.write_eq_some {m m' : Memory} {a : Nat} {bytes : List Byte} (h : m.write a bytes = some m') :
    a + bytes.length ≤ Config.memSize ∧ m' = m.setBytes a bytes := by
  unfold Memory.write at h
  split at h
  · next hle => exact ⟨hle, by simpa using h.symm⟩
  · cases h

theorem Memory.write_eq_none {m : Memory} {a : Nat} {bytes : List Byte} :
    m.write a bytes = none ↔ Config.memSize < a + bytes.length := by
  unfold Memory.write
  split <;> simp_all

end Sys2Proof.Machine
end

