-- ==== Sys2Proof/Laws/PerInstr.lean ====
section
/-!
SUPPORT. One lemma per constructor: the family `HighNibble` says that an instruction's word stands in the opcode family the
table gives its mnemonic (R52, R54, R55).
-/
namespace Sys2Proof.Laws.HighNibble

/-- The families in which a mnemonic's rows stand, by high nibble (R55). -/
def family : Instr → Nibble
  | .cls | .ret | .unknown0 _ => 0x0
  | .jp _ => 0x1
  | .call _ => 0x2
  | .seImm _ _ => 0x3
  | .sneImm _ _ => 0x4
  | .seReg _ _ | .unknown5 _ _ _ => 0x5
  | .ldImm _ _ => 0x6
  | .addImm _ _ => 0x7
  | .ldReg _ _ | .orReg _ _ | .andReg _ _ | .xorReg _ _ | .addReg _ _ | .subReg _ _ | .shr _ _ | .subnReg _ _
  | .shl _ _ | .unknown8 _ _ _ => 0x8
  | .sneReg _ _ | .unknown9 _ _ _ => 0x9
  | .ldI _ => 0xA
  | .jpV0 _ => 0xB
  | .unimpC _ _ => 0xC
  | .drw _ _ _ => 0xD
  | .unimpE _ _ => 0xE
  | .unimpF _ _ => 0xF

/-- The high nibble of the instruction's word is its family. -/
def Statement (i : Instr) : Prop := fieldOp (encode i) = family i

theorem cls : Statement .cls := rfl
theorem ret : Statement .ret := rfl
theorem unknown0 (addr : Addr) : Statement (.unknown0 addr) := fieldOp_formatA ..
theorem jp (addr : Addr) : Statement (.jp addr) := fieldOp_formatA ..
theorem call (addr : Addr) : Statement (.call addr) := fieldOp_formatA ..
theorem seImm (x : Reg) (kk : Byte) : Statement (.seImm x kk) := fieldOp_formatXK ..
theorem sneImm (x : Reg) (kk : Byte) : Statement (.sneImm x kk) := fieldOp_formatXK ..
theorem seReg (x y : Reg) : Statement (.seReg x y) := fieldOp_formatXY ..
theorem unknown5 (x y : Reg) (n : Nibble) : Statement (.unknown5 x y n) := fieldOp_formatXY ..
theorem ldImm (x : Reg) (kk : Byte) : Statement (.ldImm x kk) := fieldOp_formatXK ..
theorem addImm (x : Reg) (kk : Byte) : Statement (.addImm x kk) := fieldOp_formatXK ..
theorem ldReg (x y : Reg) : Statement (.ldReg x y) := fieldOp_formatXY ..
theorem orReg (x y : Reg) : Statement (.orReg x y) := fieldOp_formatXY ..
theorem andReg (x y : Reg) : Statement (.andReg x y) := fieldOp_formatXY ..
theorem xorReg (x y : Reg) : Statement (.xorReg x y) := fieldOp_formatXY ..
theorem addReg (x y : Reg) : Statement (.addReg x y) := fieldOp_formatXY ..
theorem subReg (x y : Reg) : Statement (.subReg x y) := fieldOp_formatXY ..
theorem shr (x y : Reg) : Statement (.shr x y) := fieldOp_formatXY ..
theorem subnReg (x y : Reg) : Statement (.subnReg x y) := fieldOp_formatXY ..
theorem shl (x y : Reg) : Statement (.shl x y) := fieldOp_formatXY ..
theorem unknown8 (x y : Reg) (n : Nibble) : Statement (.unknown8 x y n) := fieldOp_formatXY ..
theorem sneReg (x y : Reg) : Statement (.sneReg x y) := fieldOp_formatXY ..
theorem unknown9 (x y : Reg) (n : Nibble) : Statement (.unknown9 x y n) := fieldOp_formatXY ..
theorem ldI (addr : Addr) : Statement (.ldI addr) := fieldOp_formatA ..
theorem jpV0 (addr : Addr) : Statement (.jpV0 addr) := fieldOp_formatA ..
theorem unimpC (x : Reg) (kk : Byte) : Statement (.unimpC x kk) := fieldOp_formatXK ..
theorem drw (x y : Reg) (n : Nibble) : Statement (.drw x y n) := fieldOp_formatXY ..
theorem unimpE (x : Reg) (kk : Byte) : Statement (.unimpE x kk) := fieldOp_formatXK ..
theorem unimpF (x : Reg) (kk : Byte) : Statement (.unimpF x kk) := fieldOp_formatXK ..

/-- The high nibble of every instruction's word. -/
theorem of_instr : ∀ i : Instr, fieldOp (encode i) = family i
  | .cls => cls
  | .ret => ret
  | .unknown0 addr => unknown0 addr
  | .jp addr => jp addr
  | .call addr => call addr
  | .seImm x kk => seImm x kk
  | .sneImm x kk => sneImm x kk
  | .seReg x y => seReg x y
  | .unknown5 x y n => unknown5 x y n
  | .ldImm x kk => ldImm x kk
  | .addImm x kk => addImm x kk
  | .ldReg x y => ldReg x y
  | .orReg x y => orReg x y
  | .andReg x y => andReg x y
  | .xorReg x y => xorReg x y
  | .addReg x y => addReg x y
  | .subReg x y => subReg x y
  | .shr x y => shr x y
  | .subnReg x y => subnReg x y
  | .shl x y => shl x y
  | .unknown8 x y n => unknown8 x y n
  | .sneReg x y => sneReg x y
  | .unknown9 x y n => unknown9 x y n
  | .ldI addr => ldI addr
  | .jpV0 addr => jpV0 addr
  | .unimpC x kk => unimpC x kk
  | .drw x y n => drw x y n
  | .unimpE x kk => unimpE x kk
  | .unimpF x kk => unimpF x kk

end Sys2Proof.Laws.HighNibble
end

