-- ==== Sys2Proof/Laws/State.lean ====
section
/-!
SUPPORT. One lemma per field per update of `State`, so that no later proof unfolds a record update.
-/
namespace Sys2Proof.Machine

section
variable (s : State) (r q : Reg) (b : Byte) (a : Word) (d : Display) (e : DiagEvent)

@[simp] theorem readV_setV_same : (s.setV r b).readV r = b := by
  simp [State.readV, State.setV]

@[simp] theorem readV_setV_other (h : r ≠ q) : (s.setV r b).readV q = s.readV q := by
  have hv : r.val ≠ q.val := fun hv => h (Fin.ext hv)
  simp [State.readV, State.setV, Vector.getElem_set_ne, hv]

theorem readV_setV : (s.setV r b).readV q = if r = q then b else s.readV q := by
  by_cases h : r = q
  · subst h; simp
  · simp [h]

@[simp] theorem setV_i : (s.setV r b).i = s.i := rfl
@[simp] theorem setV_pc : (s.setV r b).pc = s.pc := rfl
@[simp] theorem setV_stack : (s.setV r b).stack = s.stack := rfl
@[simp] theorem setV_dt : (s.setV r b).dt = s.dt := rfl
@[simp] theorem setV_st : (s.setV r b).st = s.st := rfl
@[simp] theorem setV_mem : (s.setV r b).mem = s.mem := rfl
@[simp] theorem setV_display : (s.setV r b).display = s.display := rfl
@[simp] theorem setV_diagnostics : (s.setV r b).diagnostics = s.diagnostics := rfl

@[simp] theorem setI_readV : (s.setI a).readV r = s.readV r := rfl
@[simp] theorem setI_i : (s.setI a).i = a := rfl
@[simp] theorem setI_pc : (s.setI a).pc = s.pc := rfl
@[simp] theorem setI_stack : (s.setI a).stack = s.stack := rfl
@[simp] theorem setI_dt : (s.setI a).dt = s.dt := rfl
@[simp] theorem setI_st : (s.setI a).st = s.st := rfl
@[simp] theorem setI_mem : (s.setI a).mem = s.mem := rfl
@[simp] theorem setI_display : (s.setI a).display = s.display := rfl
@[simp] theorem setI_diagnostics : (s.setI a).diagnostics = s.diagnostics := rfl

@[simp] theorem setPc_readV : (s.setPc a).readV r = s.readV r := rfl
@[simp] theorem setPc_i : (s.setPc a).i = s.i := rfl
@[simp] theorem setPc_pc : (s.setPc a).pc = a := rfl
@[simp] theorem setPc_stack : (s.setPc a).stack = s.stack := rfl
@[simp] theorem setPc_dt : (s.setPc a).dt = s.dt := rfl
@[simp] theorem setPc_st : (s.setPc a).st = s.st := rfl
@[simp] theorem setPc_mem : (s.setPc a).mem = s.mem := rfl
@[simp] theorem setPc_display : (s.setPc a).display = s.display := rfl
@[simp] theorem setPc_diagnostics : (s.setPc a).diagnostics = s.diagnostics := rfl

@[simp] theorem push_readV : (s.push a).readV r = s.readV r := rfl
@[simp] theorem push_i : (s.push a).i = s.i := rfl
@[simp] theorem push_pc : (s.push a).pc = s.pc := rfl
@[simp] theorem push_stack : (s.push a).stack = s.stack ++ [a] := rfl
@[simp] theorem push_dt : (s.push a).dt = s.dt := rfl
@[simp] theorem push_st : (s.push a).st = s.st := rfl
@[simp] theorem push_mem : (s.push a).mem = s.mem := rfl
@[simp] theorem push_display : (s.push a).display = s.display := rfl
@[simp] theorem push_diagnostics : (s.push a).diagnostics = s.diagnostics := rfl

@[simp] theorem setDisplay_readV : (s.setDisplay d).readV r = s.readV r := rfl
@[simp] theorem setDisplay_i : (s.setDisplay d).i = s.i := rfl
@[simp] theorem setDisplay_pc : (s.setDisplay d).pc = s.pc := rfl
@[simp] theorem setDisplay_stack : (s.setDisplay d).stack = s.stack := rfl
@[simp] theorem setDisplay_dt : (s.setDisplay d).dt = s.dt := rfl
@[simp] theorem setDisplay_st : (s.setDisplay d).st = s.st := rfl
@[simp] theorem setDisplay_mem : (s.setDisplay d).mem = s.mem := rfl
@[simp] theorem setDisplay_display : (s.setDisplay d).display = d := rfl
@[simp] theorem setDisplay_diagnostics : (s.setDisplay d).diagnostics = s.diagnostics := rfl

@[simp] theorem diag_readV : (s.diag e).readV r = s.readV r := rfl
@[simp] theorem diag_i : (s.diag e).i = s.i := rfl
@[simp] theorem diag_pc : (s.diag e).pc = s.pc := rfl
@[simp] theorem diag_stack : (s.diag e).stack = s.stack := rfl
@[simp] theorem diag_dt : (s.diag e).dt = s.dt := rfl
@[simp] theorem diag_st : (s.diag e).st = s.st := rfl
@[simp] theorem diag_mem : (s.diag e).mem = s.mem := rfl
@[simp] theorem diag_display : (s.diag e).display = s.display := rfl
@[simp] theorem diag_diagnostics : (s.diag e).diagnostics = e :: s.diagnostics := rfl

@[simp] theorem advancePc_eq_setPc : s.advancePc = s.setPc (s.pc + 2) := rfl
@[simp] theorem skip_eq_setPc : s.skip = s.setPc (s.pc + 2) := rfl

end

/-! ### The call stack, and the writes of a flag-writing instruction -/

/-- `pop` undoes `push`. -/
@[simp] theorem pop_push (s : State) (a : Word) : (s.push a).pop = some (a, s) := by
  simp [State.push, State.pop]

/-- All that `pop` can do when it answers: the stack held the popped entry on top, and only the stack changes. -/
theorem pop_eq_some {s t : State} {a : Word} (h : s.pop = some (a, t)) :
    s.stack = t.stack ++ [a] ∧ t = { s with stack := s.stack.dropLast } := by
  unfold State.pop at h
  split at h
  · next b hb =>
    obtain ⟨rfl, rfl⟩ : b = a ∧ { s with stack := s.stack.dropLast } = t := by simpa using h
    exact ⟨(List.dropLast_append_getLast? _ hb).symm, rfl⟩
  · simp at h

/-- `pop` answers nothing exactly when the stack is empty. -/
theorem pop_eq_none {s : State} : s.pop = none ↔ s.stack = [] := by
  rw [← List.getLast?_eq_none_iff]
  unfold State.pop
  cases s.stack.getLast? <;> simp

@[simp] theorem setResultAndFlag_vf (s : State) (x : Reg) (b : Byte) (f : Bool) :
    (s.setResultAndFlag x b f).readV VF = flagByte f := by
  simp [State.setResultAndFlag]

theorem setResultAndFlag_dest (s : State) (x : Reg) (b : Byte) (f : Bool) (h : x ≠ VF) :
    (s.setResultAndFlag x b f).readV x = b := by
  simp [State.setResultAndFlag, h.symm]

theorem setResultAndFlag_other (s : State) (x r : Reg) (b : Byte) (f : Bool) (hx : x ≠ r) (hf : VF ≠ r) :
    (s.setResultAndFlag x b f).readV r = s.readV r := by
  simp [State.setResultAndFlag, hx, hf]

@[simp] theorem setResultAndFlag_i (s : State) (x : Reg) (b : Byte) (f : Bool) : (s.setResultAndFlag x b f).i = s.i := rfl
@[simp] theorem setResultAndFlag_pc (s : State) (x : Reg) (b : Byte) (f : Bool) : (s.setResultAndFlag x b f).pc = s.pc := rfl
@[simp] theorem setResultAndFlag_stack (s : State) (x : Reg) (b : Byte) (f : Bool) :
    (s.setResultAndFlag x b f).stack = s.stack := rfl
@[simp] theorem setResultAndFlag_dt (s : State) (x : Reg) (b : Byte) (f : Bool) : (s.setResultAndFlag x b f).dt = s.dt := rfl
@[simp] theorem setResultAndFlag_st (s : State) (x : Reg) (b : Byte) (f : Bool) : (s.setResultAndFlag x b f).st = s.st := rfl
@[simp] theorem setResultAndFlag_mem (s : State) (x : Reg) (b : Byte) (f : Bool) : (s.setResultAndFlag x b f).mem = s.mem := rfl
@[simp] theorem setResultAndFlag_display (s : State) (x : Reg) (b : Byte) (f : Bool) :
    (s.setResultAndFlag x b f).display = s.display := rfl
@[simp] theorem setResultAndFlag_diagnostics (s : State) (x : Reg) (b : Byte) (f : Bool) :
    (s.setResultAndFlag x b f).diagnostics = s.diagnostics := rfl

end Sys2Proof.Machine
end

