-- ==== Sys2Proof/Laws/Step.lean ====
section
/-!
SUPPORT. What the fetch and each shared operation of the meanings can answer, said once; the meanings that can fault, in
cases.
-/
namespace Sys2Proof.Machine

/-! ### Fetch -/

/-- Past the end of memory the fetch overruns (R71). -/
theorem fetch_of_overrun {s : State} (h : Config.memSize ≤ s.pc.toNat) :
    s.fetch = .error (.programCounterOverrun s.pc) := if_pos h

/-- At the last byte of memory the fetch is out of bounds (R72). -/
theorem fetch_at_last {s : State} (h : s.pc.toNat = Config.memSize - 1) :
    s.fetch = .error (.outOfBounds s.pc none s.pc.toNat) := by
  rw [State.fetch, if_neg (by rw [h]; decide), Memory.read2_of_ge _ (Nat.le_of_eq h.symm)]

/-- Anywhere else the fetch gives the word at PC (R72). -/
theorem fetch_of_lt {s : State} (h : s.pc.toNat < Config.memSize - 1) : s.fetch = .ok (wordAtPc s) := by
  rw [State.fetch, if_neg (by omega), Memory.read2_of_lt _ h]
  rfl

/-- The three cases of a fetch. -/
theorem fetch_cases (s : State) :
    (Config.memSize ≤ s.pc.toNat ∧ s.fetch = .error (.programCounterOverrun s.pc)) ∨
    (s.pc.toNat = Config.memSize - 1 ∧ s.fetch = .error (.outOfBounds s.pc none s.pc.toNat)) ∨
    (s.pc.toNat < Config.memSize - 1 ∧ s.fetch = .ok (wordAtPc s)) := by
  rcases Nat.lt_trichotomy s.pc.toNat (Config.memSize - 1) with h | h | h
  · exact .inr (.inr ⟨h, fetch_of_lt h⟩)
  · exact .inr (.inl ⟨h, fetch_at_last h⟩)
  · exact .inl ⟨by omega, fetch_of_overrun (by omega)⟩

/-- The fetch depends on PC and memory only. -/
theorem fetch_congr {s t : State} (hpc : t.pc = s.pc) (hmem : t.mem = s.mem) : t.fetch = s.fetch := by
  unfold State.fetch
  rw [hpc, hmem]

/-! ### Shared operations of the meanings -/

/-- A skip changes PC only, by 2 when the condition holds (R75). -/
theorem skipIf_eq (c : Bool) (s : State) : skipIf c s = .next (s.setPc (if c then s.pc + 2 else s.pc)) := by
  cases c <;> rfl

/-- A no-operation adds one event and changes nothing else (R131). -/
theorem loggedNoOp_eq (w : Word) (s : State) : loggedNoOp w s = .next (s.diag ⟨s.pc - 2, w⟩) := rfl

@[simp] theorem flagByte_eq_one (f : Bool) : flagByte f = 0x01 ↔ f = true := by cases f <;> decide

@[simp] theorem flagByte_eq_zero (f : Bool) : flagByte f = 0x00 ↔ f = false := by cases f <;> decide

/-! ### The meanings that can fault -/

/-- A return underflows on an empty stack and otherwise pops (R80). -/
theorem execRet_cases (s : State) :
    (s.stack = [] ∧ execRet s = .fault (.stackUnderflow s.pc0 0x00EE)) ∨
    ∃ (older : List Word) (a : Word), s.stack = older ++ [a] ∧
      execRet s = .next { s with stack := older, pc := a } := by
  unfold execRet
  rcases hp : s.pop with _ | ⟨a, t⟩
  · exact .inl ⟨pop_eq_none.mp hp, rfl⟩
  · obtain ⟨hs, rfl⟩ := pop_eq_some hp
    exact .inr ⟨_, a, hs, rfl⟩

/-- A call overflows on a full stack and otherwise pushes the advanced PC (R82). -/
theorem execCall_cases (addr : Addr) (s : State) :
    (s.sp = Config.stackDepth ∧ execCall addr s = .fault (.stackOverflow s.pc0 (encode (.call addr)))) ∨
    (s.sp ≠ Config.stackDepth ∧ execCall addr s = .next ((s.push s.pc).setPc (addrOperand addr))) := by
  unfold execCall
  by_cases h : s.sp = Config.stackDepth
  · exact .inl ⟨h, if_pos h⟩
  · exact .inr ⟨h, if_neg h⟩

/-- The rows that a draw reads. -/
def spriteRows (s : State) (n : Nibble) : List Byte :=
  (List.range n.toNat).map fun r => s.mem.byteAt (s.i.toNat + r)

/-- A draw faults when the sprite leaves memory and otherwise draws its rows (R126, R129). -/
theorem execDrw_cases (x y : Reg) (n : Nibble) (s : State) :
    (0 < n.toNat ∧ Config.memSize < s.i.toNat + n.toNat ∧ execDrw x y n s =
      .fault (.outOfBounds s.pc0 (some (encode (.drw x y n))) (max s.i.toNat Config.memSize))) ∨
    ((n.toNat = 0 ∨ s.i.toNat + n.toNat ≤ Config.memSize) ∧ execDrw x y n s =
      .next ((s.setDisplay (drawSprite s.display (s.readV x) (s.readV y) (spriteRows s n)).1).setV VF
        (flagByte (drawSprite s.display (s.readV x) (s.readV y) (spriteRows s n)).2))) := by
  unfold execDrw
  by_cases h : n.toNat = 0 ∨ s.i.toNat + n.toNat ≤ Config.memSize
  · refine .inr ⟨h, ?_⟩
    rw [rowCount, Memory.readRange_ok _ h]
    rfl
  · refine .inl ⟨by omega, by omega, ?_⟩
    rw [rowCount, Memory.readRange_error _ (by omega) (by omega)]
    rfl

/-- Every way an instruction can fault (R80, R82, R129). -/
theorem exec_fault_cases {i : Instr} {s : State} {f : Fault} (h : exec i s = .fault f) :
    (i = .ret ∧ s.stack = [] ∧ f = .stackUnderflow s.pc0 0x00EE) ∨
    (∃ addr, i = .call addr ∧ s.sp = Config.stackDepth ∧ f = .stackOverflow s.pc0 (encode i)) ∨
    (∃ x y n, i = .drw x y n ∧ 0 < n.toNat ∧ Config.memSize < s.i.toNat + n.toNat ∧
      f = .outOfBounds s.pc0 (some (encode i)) (max s.i.toNat Config.memSize)) := by
  cases i
  case ret =>
    rcases execRet_cases s with ⟨hs, he⟩ | ⟨older, a, hs, he⟩
    · exact .inl ⟨rfl, hs, by injection he.symm.trans h with h; exact h.symm⟩
    · cases he.symm.trans h
  case call addr =>
    rcases execCall_cases addr s with ⟨hs, he⟩ | ⟨hs, he⟩
    · exact .inr (.inl ⟨addr, rfl, hs, by injection he.symm.trans h with h; exact h.symm⟩)
    · cases he.symm.trans h
  case drw x y n =>
    rcases execDrw_cases x y n s with ⟨hn, hi, he⟩ | ⟨hi, he⟩
    · exact .inr (.inr ⟨x, y, n, rfl, hn, hi, by injection he.symm.trans h with h; exact h.symm⟩)
    · cases he.symm.trans h
  all_goals cases h

/-- Every instruction has its meaning: none is refused. -/
theorem exec_ne_refused (i : Instr) (s : State) (r : Refusal) : exec i s ≠ .refused r := by
  intro h
  cases i
  case ret => rcases execRet_cases s with ⟨-, he⟩ | ⟨_, _, -, he⟩ <;> cases he.symm.trans h
  case call addr => rcases execCall_cases addr s with ⟨-, he⟩ | ⟨-, he⟩ <;> cases he.symm.trans h
  case drw x y n => rcases execDrw_cases x y n s with ⟨-, -, he⟩ | ⟨-, he⟩ <;> cases he.symm.trans h
  all_goals cases h

/-- The bit of the drawn rows on a pixel is the sprite's bit there (R125, R128). -/
theorem rowsBit_spriteRows (s : State) (x y : Reg) (n : Nibble) (p : Fin 64) (q : Fin 32) :
    rowsBit (spriteRows s n) (anchorX (s.readV x)) (anchorY (s.readV y)) p q = spriteBit s x y n p q := by
  unfold rowsBit spriteBit spriteRows anchorX anchorY spriteColumn
  simp only [List.length_map, List.length_range]
  by_cases h : (s.readV x).toNat % 64 ≤ p.val ∧ p.val < (s.readV x).toNat % 64 + 8 ∧
      (s.readV y).toNat % 32 ≤ q.val ∧ q.val < (s.readV y).toNat % 32 + n.toNat
  · have hr : q.val - (s.readV y).toNat % 32 < n.toNat := by omega
    simp [h, hr, List.getD_eq_getElem?_getD]
  · simp [h]

end Sys2Proof.Machine
end

