-- ==== Sys2Proof/Tests/Slice0.lean ====
section
/-!
SUPPORT. Tests. Words are written out from R51, R52 and R55; expected results are the vectors of 95_test_vectors.md (named in
the comments) or the worked examples of the rules. The `witness_` theorems show, for each statement with hypotheses, states
and operands that meet them.
-/
namespace Sys2Proof.Tests

-- Fewer threads for many small theorems.
set_option Elab.async false

open Sys2Proof.Machine

/-! ### Helpers -/

/-- The answer is a next state with a property. -/
def nextIs (o : Result) (p : State → Bool) : Bool :=
  match o with
  | .next t => p t
  | .fault _ => false
  | .refused _ => false

/-- The answer is this fault. -/
def faultIs (o : Result) (f : Fault) : Bool :=
  match o with
  | .next _ => false
  | .fault g => g == f
  | .refused _ => false

theorem exists_next {o : Result} (h : nextIs o (fun _ => true) = true) : ∃ t, o = .next t := by
  cases o with
  | next t => exact ⟨t, rfl⟩
  | fault f => cases h
  | refused r => cases h

theorem fault_of {o : Result} {f : Fault} (h : faultIs o f = true) : o = .fault f := by
  cases o with
  | next t => cases h
  | fault g => rw [show g = f by simpa [faultIs] using h]
  | refused r => cases h

/-- The reset state with an image loaded at 0x200 (R162, R164). -/
def loaded (image : List Byte) : State := (hostLoad image 0x200 State.reset).2

/-- The reset state with V0, V1 and VF set, entered by an instruction fetched from 0x200. -/
def regs (v0 v1 vf : Byte) : State := ((((State.reset.setV 0 v0).setV 1 v1).setV VF vf)).setPc 0x0202

/-- The reset state with `n` entries on the call stack. -/
def stacked (n : Nat) : State := { State.reset with stack := List.replicate n 0x0202, pc := 0x0200 }

/-- The reset state with sprite bytes at an address, `I` there, and V0, V1 set. -/
def sprite (a : Nat) (bytes : List Byte) (v0 v1 : Byte) : State :=
  ((((State.reset.setV 0 v0).setV 1 v1).setI (BitVec.ofNat 16 a)).setPc 0x0202 |> fun s =>
    { s with mem := s.mem.setBytes a bytes })

theorem sprite_display_off (a : Nat) (bytes : List Byte) (v0 v1 : Byte) (p : Fin 64) (q : Fin 32) :
    (sprite a bytes v0 v1).display.at p q = false := by
  simp [sprite, State.setPc, State.setI, State.setV, State.reset, Display.at, Display.off]

/-! ### Well-formedness refuses ill-formed terms -/

theorem test_wf_unknown0_refuses_cls : (Instr.unknown0 0x0E0).wf = false := by decide +kernel
theorem test_wf_unknown0_refuses_ret : (Instr.unknown0 0x0EE).wf = false := by decide +kernel
theorem test_wf_unknown5_refuses_se : (Instr.unknown5 1 2 0).wf = false := by decide +kernel
theorem test_wf_unknown8_refuses_or : (Instr.unknown8 1 2 1).wf = false := by decide +kernel
theorem test_wf_unknown8_refuses_shl : (Instr.unknown8 1 2 0xE).wf = false := by decide +kernel
theorem test_wf_unknown9_refuses_sne : (Instr.unknown9 1 2 0).wf = false := by decide +kernel

/-! ### Decoding of words written out from the encodings, every constructor (R52, R55; EV1 to EV11) -/

theorem test_decode_cls : decode 0b0000_0000_1110_0000 = .cls := by decide +kernel
theorem test_decode_ret : decode 0b0000_0000_1110_1110 = .ret := by decide +kernel
theorem test_decode_unknown0 : decode 0b0000_0001_0010_0011 = .unknown0 0x123 := by decide +kernel
theorem test_decode_jp : decode 0b0001_1010_1011_1100 = .jp 0xABC := by decide +kernel
theorem test_decode_call : decode 0b0010_0010_0000_1000 = .call 0x208 := by decide +kernel
theorem test_decode_seImm : decode 0b0011_1100_0111_1111 = .seImm 12 0x7F := by decide +kernel
theorem test_decode_sneImm : decode 0b0100_0011_0100_0010 = .sneImm 3 0x42 := by decide +kernel
theorem test_decode_seReg : decode 0b0101_1010_1011_0000 = .seReg 10 11 := by decide +kernel
theorem test_decode_unknown5 : decode 0b0101_1010_1011_0001 = .unknown5 10 11 1 := by decide +kernel
theorem test_decode_ldImm : decode 0b0110_0000_0000_0101 = .ldImm 0 0x05 := by decide +kernel
theorem test_decode_addImm : decode 0b0111_0000_1111_1111 = .addImm 0 0xFF := by decide +kernel
theorem test_decode_ldReg : decode 0b1000_0001_0010_0000 = .ldReg 1 2 := by decide +kernel
theorem test_decode_orReg : decode 0b1000_0001_0010_0001 = .orReg 1 2 := by decide +kernel
theorem test_decode_andReg : decode 0b1000_0001_0010_0010 = .andReg 1 2 := by decide +kernel
theorem test_decode_xorReg : decode 0b1000_0001_0010_0011 = .xorReg 1 2 := by decide +kernel
theorem test_decode_addReg : decode 0b1000_1010_1011_0100 = .addReg 10 11 := by decide +kernel
theorem test_decode_subReg : decode 0b1000_0001_0010_0101 = .subReg 1 2 := by decide +kernel
theorem test_decode_shr : decode 0b1000_0001_0010_0110 = .shr 1 2 := by decide +kernel
theorem test_decode_subnReg : decode 0b1000_0001_0010_0111 = .subnReg 1 2 := by decide +kernel
theorem test_decode_shl : decode 0b1000_1010_1111_1110 = .shl 10 15 := by decide +kernel
theorem test_decode_unknown8 : decode 0b1000_1010_1011_1111 = .unknown8 10 11 0xF := by decide +kernel
theorem test_decode_sneReg : decode 0b1001_1010_1011_0000 = .sneReg 10 11 := by decide +kernel
theorem test_decode_unknown9 : decode 0b1001_1010_1011_1111 = .unknown9 10 11 0xF := by decide +kernel
theorem test_decode_ldI : decode 0b1010_0010_0001_0000 = .ldI 0x210 := by decide +kernel
theorem test_decode_jpV0 : decode 0b1011_1111_1111_1111 = .jpV0 0xFFF := by decide +kernel
theorem test_decode_unimpC : decode 0b1100_0001_1111_1111 = .unimpC 1 0xFF := by decide +kernel
theorem test_decode_drw : decode 0b1101_0001_0010_1111 = .drw 1 2 0xF := by decide +kernel
theorem test_decode_unimpE : decode 0b1110_0001_1001_1110 = .unimpE 1 0x9E := by decide +kernel
theorem test_decode_unimpF : decode 0b1111_0001_0000_1010 = .unimpF 1 0x0A := by decide +kernel

theorem test_decodeBytes_big_endian : decodeBytes [0x12, 0x34, 0x99] = .ok (.jp 0x234, [0x99]) := by decide +kernel
theorem test_decodeBytes_refuses_one_byte : decodeBytes [0x12] = .error .fewerThanTwoBytes := by decide +kernel
theorem test_decodeTableWord_drw : decodeTableWord 16 0xD12F = some (.drw 1 2 0xF) := by decide +kernel
theorem test_encode_drw : encode (.drw 1 2 0xF) = 0xD12F := by decide +kernel

/-! ### Fetch, and the instruction that the host places -/

/-- MV6: an odd PC is legal. -/
theorem test_odd_pc_fetches :
    nextIs (step { (hostLoad [0x61, 0x2A] 0x201 State.reset).2 with pc := 0x0201 })
      (fun t => t.readV 1 == 0x2A && t.pc == 0x0203) = true := by decide +kernel

/-- MV7: the highest legal fetch. -/
theorem test_fetch_at_the_top :
    nextIs (step (hostLoad [0x60, 0x07] 0xFFE State.reset).2) (fun t => t.readV 0 == 0x07 && t.pc == 0x1000) = true := by
  decide +kernel

theorem test_withFetchWord_runs : nextIs (step (State.reset.withFetchWord 16 0x6005)) (fun t => t.readV 0 == 0x05) = true := by
  decide +kernel

/-- FV10 and FV9: a load past the capacity is refused, an empty one at the capacity is not. -/
theorem test_load_past_capacity_refused : (hostLoad [] 0x1001 State.reset).1 = .outOfBounds := by decide +kernel
theorem test_load_empty_at_capacity : (hostLoad [] 0x1000 State.reset).1 = .ok := by decide +kernel

/-! ### Control transfer (CV vectors) -/

/-- CV10. -/
theorem test_ret_last_in_first_out :
    nextIs (exec .ret { State.reset with stack := [0x0204, 0x030A] }) (fun t => t.pc == 0x030A && t.stack == [0x0204]) = true := by
  decide +kernel
/-- CV12 and FV4. -/
theorem test_ret_underflow : faultIs (step (loaded [0x00, 0xEE])) (.stackUnderflow 0x0200 0x00EE) = true := by decide +kernel
/-- CV2. -/
theorem test_jp_odd_target : nextIs (step (loaded [0x12, 0x01])) (fun t => t.pc == 0x0201) = true := by decide +kernel
/-- CV8. -/
theorem test_call_at_the_top :
    nextIs (step (hostLoad [0x23, 0x00] 0xFFE State.reset).2) (fun t => t.stack == [0x1000] && t.pc == 0x0300) = true := by
  decide +kernel
/-- CV6 and FV5. -/
theorem test_call_overflow :
    faultIs (exec (.call 0x300) { stacked 16 with pc := 0x0202 }) (.stackOverflow 0x0200 0x2300) = true := by decide +kernel
/-- CV15. -/
theorem test_jpV0_no_wrap : nextIs (exec (.jpV0 0xFFF) (regs 0xFF 0 0)) (fun t => t.pc == 0x10FE) = true := by decide +kernel
/-- CV17: the nibble above is part of the address. -/
theorem test_jpV0_uses_v0 :
    nextIs (exec (.jpV0 0x500) ((regs 0x01 0 0).setV 5 0x80)) (fun t => t.pc == 0x0501) = true := by decide +kernel

/-! ### Skips (KV vectors) -/

/-- KV11. -/
theorem test_seImm_vf : nextIs (exec (.seImm 15 0x01) (regs 0 0 1)) (fun t => t.pc == 0x0204) = true := by decide +kernel
/-- KV3. -/
theorem test_sneImm_equal : nextIs (exec (.sneImm 0 0x42) (regs 0x42 0 0)) (fun t => t.pc == 0x0202) = true := by decide +kernel
/-- KV6. -/
theorem test_seReg_differ : nextIs (exec (.seReg 0 1) (regs 7 8 0)) (fun t => t.pc == 0x0202) = true := by decide +kernel
/-- KV8. -/
theorem test_sneReg_differ : nextIs (exec (.sneReg 0 1) (regs 7 8 0)) (fun t => t.pc == 0x0204) = true := by decide +kernel

/-! ### Loads and the ALU (AV vectors) -/

/-- AV2. -/
theorem test_ldImm_vf : nextIs (exec (.ldImm 15 0x07) (regs 0 0 1)) (fun t => t.readV VF == 0x07) = true := by decide +kernel
/-- AV3. -/
theorem test_addImm_no_flag :
    nextIs (exec (.addImm 0 0x05) (regs 0xFE 0 0x5A)) (fun t => t.readV 0 == 0x03 && t.readV VF == 0x5A) = true := by decide +kernel
/-- AV7. -/
theorem test_ldReg : nextIs (exec (.ldReg 0 1) (regs 0 0x33 0)) (fun t => t.readV 0 == 0x33 && t.readV 1 == 0x33) = true := by
  decide +kernel
/-- AV8. -/
theorem test_orReg_no_flag :
    nextIs (exec (.orReg 0 1) (regs 0xF0 0x0F 0x5A)) (fun t => t.readV 0 == 0xFF && t.readV VF == 0x5A) = true := by decide +kernel
/-- AV9. -/
theorem test_andReg_no_flag :
    nextIs (exec (.andReg 0 1) (regs 0xF0 0x3C 0x5A)) (fun t => t.readV 0 == 0x30 && t.readV VF == 0x5A) = true := by decide +kernel
/-- AV10. -/
theorem test_xorReg_no_flag :
    nextIs (exec (.xorReg 0 1) (regs 0xF0 0x3C 0x5A)) (fun t => t.readV 0 == 0xCC && t.readV VF == 0x5A) = true := by decide +kernel
/-- AV18: the flag wins in VF. -/
theorem test_addReg_x_is_vf : nextIs (exec (.addReg 15 0) (regs 0x20 0 0xF0)) (fun t => t.readV VF == 0x01) = true := by decide +kernel
/-- AV19: the old VF is the operand. -/
theorem test_addReg_y_is_vf :
    nextIs (exec (.addReg 0 15) (regs 0x10 0 0xF5)) (fun t => t.readV 0 == 0x05 && t.readV VF == 0x01) = true := by decide +kernel
/-- AV24: a strict comparison. -/
theorem test_subReg_equal :
    nextIs (exec (.subReg 0 1) (regs 0x05 0x05 1)) (fun t => t.readV 0 == 0x00 && t.readV VF == 0x00) = true := by decide +kernel
/-- AV29: the old VF is the operand, and the difference wraps. -/
theorem test_subReg_y_is_vf :
    nextIs (exec (.subReg 0 15) (regs 0x03 0 0x09)) (fun t => t.readV 0 == 0xFA && t.readV VF == 0x00) = true := by decide +kernel
/-- AV33: `y` is unused. -/
theorem test_shr_ignores_y :
    nextIs (exec (.shr 0 1) (regs 0x03 0xAA 0)) (fun t => t.readV 0 == 0x01 && t.readV VF == 0x01 && t.readV 1 == 0xAA) = true := by
  decide +kernel
/-- AV35. -/
theorem test_shr_x_is_vf : nextIs (exec (.shr 15 0) (regs 0 0 0x02)) (fun t => t.readV VF == 0x00) = true := by decide +kernel
/-- AV37. -/
theorem test_subnReg :
    nextIs (exec (.subnReg 0 1) (regs 0x03 0x0A 0)) (fun t => t.readV 0 == 0x07 && t.readV VF == 0x01) = true := by decide +kernel
/-- AV36. -/
theorem test_subnReg_wraps :
    nextIs (exec (.subnReg 0 1) (regs 0xC8 0x64 0)) (fun t => t.readV 0 == 0x9C && t.readV VF == 0x00) = true := by decide +kernel
/-- AV43: the flag is 0x01, not 0x80. -/
theorem test_shl_flag :
    nextIs (exec (.shl 0 0) (regs 0x9C 0 0)) (fun t => t.readV 0 == 0x38 && t.readV VF == 0x01) = true := by decide +kernel
/-- AV48. -/
theorem test_shl_x_is_vf : nextIs (exec (.shl 15 0) (regs 0 0 0x7F)) (fun t => t.readV VF == 0x00) = true := by decide +kernel
/-- AV50. -/
theorem test_ldI : nextIs (exec (.ldI 0xFFF) (State.reset.setI 0x0123)) (fun t => t.i == 0x0FFF) = true := by decide +kernel

/-! ### Display (DV vectors) -/

/-- DV19: VF is not cleared. -/
theorem test_cls_keeps_vf :
    nextIs (exec .cls ((regs 0 0 1).setDisplay (State.reset.display.xorAt 5 6 true).1))
      (fun t => t.display.at 5 6 == false && t.readV VF == 0x01) = true := by decide +kernel
/-- DV2: the anchor wraps. -/
theorem test_drw_anchor_wraps :
    nextIs (exec (.drw 0 1 1) (sprite 0x300 [0x80] 70 40)) (fun t => t.display.at 6 8 && t.readV VF == 0x00) = true := by decide +kernel
/-- DV12: out of bounds at the first address past memory. -/
theorem test_drw_out_of_bounds :
    faultIs (exec (.drw 0 0 3) (sprite 0xFFE [] 0 0)) (.outOfBounds 0x0200 (some 0xD003) 0x1000) = true := by decide +kernel
/-- DV4: the body is clipped, not wrapped. -/
theorem test_draw_clips :
    ((drawSprite Display.off 60 0 [0xFF]).1.at 63 0 && !(drawSprite Display.off 60 0 [0xFF]).1.at 0 0) = true := by decide +kernel
/-- DV6 and DV7: bit 7 is the leftmost pixel; a lit bit on a lit pixel collides and turns it off. -/
theorem test_draw_collides :
    ((drawSprite (Display.off.xorAt 0 0 true).1 0 0 [0x80]).2 && !(drawSprite (Display.off.xorAt 0 0 true).1 0 0 [0x40]).2) = true := by
  decide +kernel

/-! ### The no-operations (UV vectors) -/

theorem test_unknown0_logs :
    nextIs (step (loaded [0x01, 0x23])) (fun t => t.pc == 0x0202 && t.diagnostics == [⟨0x0200, 0x0123⟩]) = true := by decide +kernel
theorem test_unknown5_no_skip :
    nextIs (step (loaded [0x51, 0x21])) (fun t => t.pc == 0x0202 && t.diagnostics == [⟨0x0200, 0x5121⟩]) = true := by decide +kernel
theorem test_unknown8_no_flag :
    nextIs (exec (.unknown8 0 1 0xF) (regs 1 2 9)) (fun t => t.readV VF == 0x09 && t.diagnostics == [⟨0x0200, 0x801F⟩]) = true := by
  decide +kernel
theorem test_unknown9_no_skip :
    nextIs (exec (.unknown9 0 1 1) (regs 1 2 0)) (fun t => t.pc == 0x0202 && t.diagnostics == [⟨0x0200, 0x9011⟩]) = true := by
  decide +kernel
theorem test_unimpC_no_write :
    nextIs (exec (.unimpC 0 0xFF) (regs 0x11 0 0)) (fun t => t.readV 0 == 0x11 && t.diagnostics == [⟨0x0200, 0xC0FF⟩]) = true := by
  decide +kernel
theorem test_unimpE_no_skip :
    nextIs (exec (.unimpE 0 0x9E) (regs 1 0 0)) (fun t => t.pc == 0x0202 && t.diagnostics == [⟨0x0200, 0xE09E⟩]) = true := by
  decide +kernel
theorem test_unimpF_no_timer :
    nextIs (exec (.unimpF 0 0x15) (regs 0x3C 0 0)) (fun t => t.dt == 0x00 && t.diagnostics == [⟨0x0200, 0xF015⟩]) = true := by
  decide +kernel

/-! ### Witnesses: states and operands that meet the hypotheses of the statements -/

theorem witness_DecodeOfEncodeIsTheInstruction :
    (Instr.unknown8 1 2 0xF).wf = true ∧ (Instr.unknown0 0x0E1).wf = true ∧ (Instr.unknown5 1 2 0xF).wf = true := by decide +kernel

theorem witness_EveryWordIsOneInstruction : (Instr.shl 10 15).wf = true ∧ encode (.shl 10 15) = 0x8AFE := by decide +kernel

theorem witness_DecodeFollowsTheOpcodeMap :
    (∃ r ∈ exactRows, r.selects 0x8AB4 = true) ∧ ∀ r ∈ exactRows, r.selects 0x8ABF = false := by decide +kernel

theorem witness_AnInstructionIsTwoBytes :
    (Instr.jp 0xFFF).wf = true ∧ ([0x12] : List Byte).length < 2 ∧ ¬ ([0x12, 0x34] : List Byte).length < 2 := by decide +kernel

theorem witness_MemoryReadsAreBoundedAndBigEndian :
    (4095 < 4096 ∧ ¬ 4096 ≤ 4095) ∧ (4096 ≤ 4096 ∧ ¬ 4096 < 4096) ∧ (4094 < 4095 ∧ ¬ 4095 ≤ 4094) ∧ (4095 ≤ 4095) := by decide +kernel

/-- PC at, one below and two below the memory size, each under exactly one clause. -/
theorem witness_StepRunsTheDecodedInstruction :
    4096 ≤ (State.reset.setPc 0x1000).pc.toNat ∧ (State.reset.setPc 0x0FFF).pc.toNat = 4095 ∧
    (State.reset.setPc 0x0FFE).pc.toNat < 4095 := by decide +kernel

theorem witness_StepRunsTheEncodedInstruction :
    (Instr.ldImm 0 0x05).wf = true ∧ (loaded [0x60, 0x05]).pc.toNat < 4095 ∧
    [(loaded [0x60, 0x05]).mem.byteAt (loaded [0x60, 0x05]).pc.toNat,
      (loaded [0x60, 0x05]).mem.byteAt ((loaded [0x60, 0x05]).pc.toNat + 1)] = encodeBytes (.ldImm 0 0x05) := by decide +kernel

/-- Each of the five alternatives (P6a to P6e). -/
theorem witness_StepFaultsExactlyOnTheFourConditions :
    step (State.reset.setPc 0x10FE) = .fault (.programCounterOverrun 0x10FE) ∧
    step (State.reset.setPc 0x0FFF) = .fault (.outOfBounds 0x0FFF none 4095) ∧
    step (loaded [0x00, 0xEE]) = .fault (.stackUnderflow 0x0200 0x00EE) ∧
    step { loaded [0x22, 0x00] with stack := List.replicate 16 0x0202 } = .fault (.stackOverflow 0x0200 0x2200) ∧
    step { loaded [0xD0, 0x03] with i := 0x0FFE } = .fault (.outOfBounds 0x0200 (some 0xD003) 4096) :=
  ⟨fault_of (by decide +kernel), fault_of (by decide +kernel), fault_of (by decide +kernel), fault_of (by decide +kernel), fault_of (by decide +kernel)⟩

theorem witness_AFaultingStepCommitsNothing : step (loaded [0x00, 0xEE]) = .fault (.stackUnderflow 0x0200 0x00EE) :=
  fault_of (by decide +kernel)

theorem loaded_stack (image : List Byte) : (loaded image).stack = [] := by
  unfold loaded hostLoad; split <;> rfl

theorem loaded_inBounds : InBounds (loaded [0x60, 0x05]) :=
  ⟨by decide +kernel, by decide +kernel, by simp [loaded_stack], by decide +kernel, by decide +kernel⟩

theorem witness_StepKeepsTheBounds : InBounds (loaded [0x60, 0x05]) ∧ ∃ t, step (loaded [0x60, 0x05]) = .next t :=
  ⟨loaded_inBounds, exists_next (by decide +kernel)⟩

theorem witness_HostOperationsKeepTheBounds : InBounds (loaded [0x60, 0x05]) := loaded_inBounds

/-- A destination register, the flag of a flag-writing instruction, and a flag-writing instruction that completes. -/
theorem witness_RegistersChangeOnlyAsDestinationOrFlag :
    (∃ t, exec (.ldImm 3 0x2A) State.reset = .next t ∧ t.readV 3 ≠ State.reset.readV 3) ∧
    (∃ t, exec (.addReg 0 1) (regs 0xFF 0x01 0) = .next t ∧ t.readV VF ≠ (regs 0xFF 0x01 0).readV VF) ∧
    writesFlag (.addReg 0 1) = true :=
  ⟨⟨_, rfl, by decide +kernel⟩, ⟨_, rfl, by decide +kernel⟩, rfl⟩

/-- A change of each component. -/
theorem witness_EachComponentHasItsWriters :
    (∃ t, exec (.ldI 0x210) State.reset = .next t ∧ t.i ≠ State.reset.i) ∧
    (∃ t, exec (.call 0x210) State.reset = .next t ∧ t.stack ≠ State.reset.stack) ∧
    (∃ t, exec .cls (State.reset.setDisplay (Display.off.xorAt 0 0 true).1) = .next t ∧
      t.display.at 0 0 ≠ (State.reset.setDisplay (Display.off.xorAt 0 0 true).1).display.at 0 0) ∧
    (∃ t, exec (.unimpF 0 0) State.reset = .next t ∧ t.diagnostics ≠ State.reset.diagnostics) :=
  ⟨⟨_, rfl, by decide +kernel⟩, ⟨_, rfl, by decide +kernel⟩, ⟨_, rfl, by decide +kernel⟩, ⟨_, rfl, by decide +kernel⟩⟩

/-- An instruction for each clause; `.ret` with an entry to pop. -/
theorem witness_EachInstructionLeavesPcAsListed :
    (∃ t, exec (.jp 0xFFF) State.reset = .next t) ∧ (∃ t, exec (.call 0) State.reset = .next t) ∧
    (∃ t, exec (.jpV0 0xFFF) (regs 0xFF 0 0) = .next t) ∧ (∃ t, exec .ret (stacked 1) = .next t) ∧
    (∃ t, exec (.seImm 0 0) State.reset = .next t) ∧ (∃ t, exec (.sneImm 0 0) State.reset = .next t) ∧
    (∃ t, exec (.seReg 0 1) State.reset = .next t) ∧ (∃ t, exec (.sneReg 0 1) State.reset = .next t) ∧
    (∃ t, exec .cls State.reset = .next t) ∧ redirectsPc .cls = false :=
  ⟨⟨_, rfl⟩, ⟨_, rfl⟩, ⟨_, rfl⟩, ⟨_, rfl⟩, ⟨_, rfl⟩, ⟨_, rfl⟩, ⟨_, rfl⟩, ⟨_, rfl⟩, ⟨_, rfl⟩, rfl⟩

theorem witness_OneDiagnosticForEachNoOperation :
    ((∃ t, step (loaded [0xF1, 0x0A]) = .next t) ∧ noOpWord (wordAtPc (loaded [0xF1, 0x0A])) = true) ∧
    ((∃ t, step (loaded [0x60, 0x05]) = .next t) ∧ noOpWord (wordAtPc (loaded [0x60, 0x05])) = false) ∧
    step (loaded [0x00, 0xEE]) = .fault (.stackUnderflow 0x0200 0x00EE) :=
  ⟨⟨exists_next (by decide +kernel), by decide +kernel⟩, ⟨exists_next (by decide +kernel), by decide +kernel⟩, fault_of (by decide +kernel)⟩

theorem witness_ReturnPopsIntoPc :
    (stacked 0).stack = [] ∧ (stacked 1).stack = [] ++ [0x0202] ∧ (stacked 16).stack = List.replicate 15 0x0202 ++ [0x0202] := by
  decide +kernel

theorem witness_CallPushesTheAdvancedPc : (stacked 16).sp = 16 ∧ (stacked 15).sp ≠ 16 ∧ (stacked 0).sp ≠ 16 := by decide +kernel

theorem witness_ReturnMatchesItsCall :
    (stacked 15).sp ≠ 16 ∧ ∃ t, exec (.call 0x208) (stacked 15) = .next t ∧ (t.setPc 0x020E).stack = t.stack :=
  ⟨by decide +kernel, _, rfl, rfl⟩

theorem witness_JumpToItselfStaysInPlace :
    (loaded [0x12, 0x00]).pc.toNat < 4095 ∧ wordAtPc (loaded [0x12, 0x00]) = 0x1#4 ++ 0x200#12 ∧
    (0x200 : Addr).toNat = (loaded [0x12, 0x00]).pc.toNat := by decide +kernel

theorem witness_ImmediateSkipsCompareVx : (regs 0x42 0 0).readV 0 = 0x42 ∧ (regs 0x42 0 0).readV 0 ≠ 0x43 := by decide +kernel

theorem witness_RegisterSkipsCompareVxVy :
    (regs 7 7 0).readV 0 = (regs 7 7 0).readV 1 ∧ (regs 7 8 0).readV 0 ≠ (regs 7 8 0).readV 1 ∧ (0x1 : Nibble) ≠ 0 ∧
    (0xF : Nibble) ≠ 0 := by decide +kernel

/-- For the five flag-writing statements of the ALU: a destination that is not VF, the highest such register too. -/
theorem witness_AluDestinationIsNotVf : (0 : Reg) ≠ VF ∧ (14 : Reg) ≠ VF := by decide +kernel

theorem witness_EngineCompositesByXor : 63 < 64 ∧ 31 < 32 ∧ ¬ ((62 : Fin 64).val = 63 ∧ (31 : Fin 32).val = 31) ∧ 64 ≤ 64 ∧ 32 ≤ 32 := by
  decide +kernel

/-- The bound from both sides (DV15, DV16), no rows at all (DV10), and a collision and none (DV6, DV7). -/
theorem witness_DrawCompositesTheSprite :
    (0 < (0xF : Nibble).toNat ∧ 4096 < (State.reset.setI 0x0FF2).i.toNat + (0xF : Nibble).toNat) ∧
    ((State.reset.setI 0x0FF1).i.toNat + (0xF : Nibble).toNat ≤ 4096) ∧ (0x0 : Nibble).toNat = 0 ∧
    (spriteBit (sprite 0x300 [0x80] 0 0) 0 1 1 0 0 = true ∧
      ((sprite 0x300 [0x80] 0 0).setDisplay (Display.off.xorAt 0 0 true).1).display.at 0 0 = true) ∧
    (∀ p q, spriteBit (sprite 0x300 [0x80] 0 0) 0 1 1 p q = true → (sprite 0x300 [0x80] 0 0).display.at p q = false) :=
  ⟨by decide +kernel, by decide +kernel, by decide +kernel, by decide +kernel, fun p q _ => sprite_display_off _ _ _ _ p q⟩

theorem witness_DrawingTwiceRestoresTheDisplay :
    (0 : Reg) ≠ VF ∧ (1 : Reg) ≠ VF ∧ (sprite 0xFFE [0x80, 0x80] 0 0).i.toNat + (2 : Nibble).toNat ≤ 4096 := by decide +kernel

theorem witness_UnlistedWordsAreLoggedNoOperations :
    noOpWord 0x0000 = true ∧ noOpWord 0x00E1 = true ∧ noOpWord 0x5AB1 = true ∧ noOpWord 0x8ABF = true ∧
    noOpWord 0x9ABF = true ∧ noOpWord 0xC000 = true ∧ noOpWord 0xE0A1 = true ∧ noOpWord 0xFFFF = true := by decide +kernel

theorem witness_ZeroMemoryRunsToTheOverrun :
    (∀ a, State.reset.mem.byteAt a = 0x00) ∧ State.reset.pc = 0x0000 ∧ 2048 < 2049 := ⟨fun _ => rfl, rfl, by decide +kernel⟩

/-- A load that just fits and one that just does not (FV9, FV10), in canonical memory. -/
theorem witness_LoadPlacesTheImageOrNothing :
    State.reset.mem.wf ∧ 0x0FFE + ([0x60, 0x07] : List Byte).length ≤ 4096 ∧ 4096 < 0x0FFF + ([0x60, 0x07] : List Byte).length := by
  decide +kernel

/-- A run that reaches its count, and one that faults at once. -/
theorem witness_RunStepsUntilTheCountOrAFault :
    (hostOp (.run 1) (loaded [0x60, 0x05])).1 = .ran 1 none ∧
    (hostOp (.run 1) (loaded [0x00, 0xEE])).1 = .ran 0 (some (.stackUnderflow 0x0200 0x00EE)) := by decide +kernel

theorem witness_DisplayReadPortGivesThePixels : 63 < 64 ∧ 31 < 32 ∧ 64 ≤ 64 ∧ 32 ≤ 32 := by decide +kernel

theorem witness_ObservationShowsAllAndChangesNothing : 15 < (stacked 16).stack.length ∧ 4095 < 4096 := by decide +kernel

end Sys2Proof.Tests
end

section
/-!
PROOFS for the state family (10_state.md): what each completed instruction does, said once, and from it the bounds of R22, the
writers of each component and the values PC is left with; then the timers, which no step reads.
-/
namespace Sys2Proof.Machine

/-! ### What a completed instruction does -/

/-- All that phase 4 can do when it completes. The instructions that share an effect stand in one case, told apart by the
classes of `Safety.lean`: the skips, the register writes without and with a flag, and the no-operations. -/
inductive Effect (s : State) : Instr → State → Prop
  | clear : Effect s .cls (s.setDisplay s.display.clear)
  | ret {older : List Word} {a : Word} (hstack : s.stack = older ++ [a]) :
      Effect s .ret { s with stack := older, pc := a }
  | jump (addr : Addr) : Effect s (.jp addr) (s.setPc (addrOperand addr))
  | call (addr : Addr) (hroom : s.sp ≠ Config.stackDepth) :
      Effect s (.call addr) ((s.push s.pc).setPc (addrOperand addr))
  | offsetJump (addr : Addr) : Effect s (.jpV0 addr) (s.setPc (addrPlusV0 s addr))
  | skip {i : Instr} (hpc : redirectsPc i = true) (hflag : writesFlag i = false) (c : Bool) :
      Effect s i (s.setPc (if c then s.pc + 2 else s.pc))
  | write {i : Instr} {x : Reg} (hdest : destination i = some x) (hflag : writesFlag i = false) (b : Byte) :
      Effect s i (s.setV x b)
  | writeWithFlag {i : Instr} {x : Reg} (hdest : destination i = some x) (hflag : writesFlag i = true) (b : Byte)
      (f : Bool) :
      Effect s i (s.setResultAndFlag x b f)
  | loadIndex (addr : Addr) : Effect s (.ldI addr) (s.setI (addrOperand addr))
  | draw (x y : Reg) (n : Nibble) (d : Display) (f : Bool) :
      Effect s (.drw x y n) ((s.setDisplay d).setV VF (flagByte f))
  | log {i : Instr} (hnoop : i.isNoOp = true) (hflag : writesFlag i = false) (e : DiagEvent) : Effect s i (s.diag e)

/-- An instruction that completes has one of the listed effects. -/
theorem exec_effect {i : Instr} {s t : State} (h : exec i s = .next t) : Effect s i t := by
  cases i
  case cls => cases h; exact .clear
  case ret =>
    rcases execRet_cases s with ⟨-, he⟩ | ⟨older, a, hs, he⟩ <;> cases he.symm.trans h
    exact .ret hs
  case jp addr => cases h; exact .jump addr
  case call addr =>
    rcases execCall_cases addr s with ⟨-, he⟩ | ⟨hs, he⟩ <;> cases he.symm.trans h
    exact .call addr hs
  case jpV0 addr => cases h; exact .offsetJump addr
  case seImm | sneImm | seReg | sneReg =>
    cases (skipIf_eq _ s).symm.trans h
    exact .skip rfl rfl _
  case ldImm | addImm | ldReg | orReg | andReg | xorReg => cases h; exact .write rfl rfl _
  case addReg | subReg | shr | subnReg | shl => cases h; exact .writeWithFlag rfl rfl _ _
  case ldI addr => cases h; exact .loadIndex addr
  case drw x y n =>
    rcases execDrw_cases x y n s with ⟨-, -, he⟩ | ⟨-, he⟩ <;> cases he.symm.trans h
    exact .draw x y n _ _
  case unknown0 | unknown5 | unknown8 | unknown9 | unimpC | unimpE | unimpF => cases h; exact .log rfl rfl _

/-- A step that completes fetched below the last byte of memory and ran the decoded instruction (R71, R72, R79). -/
theorem step_next {s t : State} (h : step s = .next t) :
    s.pc.toNat < 4095 ∧ exec (decode (wordAtPc s)) s.advancePc = .next t := by
  unfold step at h
  rcases fetch_cases s with ⟨-, hf⟩ | ⟨-, hf⟩ | ⟨hpc, hf⟩ <;> rw [hf] at h
  · cases h
  · cases h
  · exact ⟨hpc, h⟩

/-! ### The values an instruction computes -/

@[simp] theorem addrOperand_toNat (addr : Addr) : (addrOperand addr).toNat = addr.toNat :=
  BitVec.toNat_setWidth_of_le (by decide)

/-- The target of Baddr does not wrap (R83). -/
theorem addrPlusV0_toNat (s : State) (addr : Addr) :
    (addrPlusV0 s addr).toNat = addr.toNat + (s.readV V0).toNat := by
  have ha := addr.isLt
  have hv := (s.readV V0).isLt
  simp only [addrPlusV0, BitVec.toNat_add, BitVec.toNat_setWidth]
  omega

/-- An advance by 2 does not wrap below the top of the 16-bit range. -/
theorem toNat_add_two {a : Word} (h : a.toNat ≤ 0x1000) : (a + 2).toNat = a.toNat + 2 := by
  rw [BitVec.toNat_add, show (2 : Word).toNat = 2 from rfl]
  omega

theorem flagByte_zero_or_one (f : Bool) : flagByte f = 0x00 ∨ flagByte f = 0x01 := by
  cases f <;> decide

/-! ### The bounds of R22 -/

/-- Phase 4 keeps the bounds when PC stands where the advance of a fetch leaves it. -/
theorem exec_keeps_bounds {i : Instr} {s t : State} (hs : InBounds s) (hlow : 0x0002 ≤ s.pc.toNat)
    (hhigh : s.pc.toNat ≤ 0x1000) (h : exec i s = .next t) : InBounds t := by
  obtain ⟨hi, hpc, hstack, hsp, hmem⟩ := hs
  cases exec_effect h with
  | clear | write | writeWithFlag | draw | log => exact ⟨hi, hpc, hstack, hsp, hmem⟩
  | @ret older a hpop =>
    rw [State.sp, hpop, List.length_append] at hsp
    rw [hpop] at hstack
    have ha := hstack a (by simp)
    exact ⟨hi, by simp only []; omega, fun b hb => hstack b (by simp [hb]), by simp only [State.sp]; omega, hmem⟩
  | jump addr =>
    have ha := addr.isLt
    exact ⟨hi, by rw [setPc_pc, addrOperand_toNat]; omega, hstack, hsp, hmem⟩
  | call addr hroom =>
    have ha := addr.isLt
    refine ⟨hi, by rw [setPc_pc, addrOperand_toNat]; omega, fun b hb => ?_, ?_, hmem⟩
    · rcases List.mem_append.mp hb with hb | hb
      · exact hstack b hb
      · rw [List.mem_singleton.mp hb]; exact ⟨hlow, hhigh⟩
    · simp only [State.sp, setPc_stack, push_stack, List.length_append, List.length_singleton] at *
      omega
  | offsetJump addr =>
    have ha := addr.isLt
    have hv := (s.readV V0).isLt
    exact ⟨hi, by rw [setPc_pc, addrPlusV0_toNat]; omega, hstack, hsp, hmem⟩
  | skip _ _ c =>
    refine ⟨hi, ?_, hstack, hsp, hmem⟩
    cases c
    · exact hpc
    · simp only [setPc_pc, if_true, toNat_add_two hhigh]; omega
  | loadIndex addr =>
    have ha := addr.isLt
    exact ⟨by rw [setI_i, addrOperand_toNat]; omega, hpc, hstack, hsp, hmem⟩

/-- Settles O12: the fetch advances PC into 0x0002..0x1000, where every instruction keeps the bounds. -/
theorem stepKeepsTheBounds : Obligations.StepKeepsTheBounds := by
  intro s t hs h
  obtain ⟨hlt, hexec⟩ := step_next h
  have hadv : s.advancePc.pc.toNat = s.pc.toNat + 2 := toNat_add_two (by omega)
  obtain ⟨hi, -, hrest⟩ := hs
  exact exec_keeps_bounds (s := s.advancePc) ⟨hi, by omega, hrest⟩ (by omega) (by omega) hexec

/-- Settles O13: everything is zero, and memory lists nothing. -/
theorem resetMeetsTheBounds : Obligations.ResetMeetsTheBounds :=
  ⟨by decide, by decide, fun _ ha => absurd ha List.not_mem_nil, by decide, Memory.wf_nil⟩

/-! ### The host's operations keep the bounds -/

theorem hostLoad_keeps_bounds (bytes : List Byte) (base : Nat) {s : State} (hs : InBounds s) :
    InBounds (hostLoad bytes base s).2 := by
  unfold hostLoad
  split
  · next m hw =>
    obtain ⟨hle, rfl⟩ := Memory.write_eq_some hw
    have hbase : base ≤ 4096 := Nat.le_of_add_right_le hle
    obtain ⟨hi, -, hstack, hsp, hmem⟩ := hs
    refine ⟨hi, ?_, hstack, hsp, Memory.wf_setBytes hmem hle⟩
    simp only [BitVec.toNat_ofNat]
    omega
  · exact hs

theorem hostStep_keeps_bounds {s : State} (hs : InBounds s) : InBounds (hostStep s).2 := by
  unfold hostStep
  split
  · next t h => exact stepKeepsTheBounds s t hs h
  · exact hs
  · exact hs

theorem runFor_keeps_bounds (n : Nat) {s : State} (hs : InBounds s) : InBounds (runFor n s).2.2 := by
  induction n generalizing s with
  | zero => exact hs
  | succ n ih =>
    rw [runFor]
    split
    · next t h => exact ih (stepKeepsTheBounds s t hs h)
    · exact hs
    · exact hs

theorem timerSet_keeps_bounds (t : Timer) (value : Byte) {s : State} (hs : InBounds s) :
    InBounds (timerSet t value s) := by
  cases t <;> exact hs

theorem hostOp_keeps_bounds (op : HostOp) {s : State} (hs : InBounds s) : InBounds (hostOp op s).2 := by
  cases op with
  | reset => exact resetMeetsTheBounds
  | load bytes base => exact hostLoad_keeps_bounds bytes base hs
  | step => exact hostStep_keeps_bounds hs
  | run n => exact runFor_keeps_bounds n hs
  | timerSet t value => exact timerSet_keeps_bounds t value hs
  | displayDump | timerGet => exact hs
  | displayGet | observe =>
    rw [hostOp]
    split <;> exact hs

theorem hostRun_keeps_bounds (ops : List HostOp) {s : State} (hs : InBounds s) : InBounds (hostRun ops s) := by
  induction ops generalizing s with
  | nil => exact hs
  | cons op ops ih => exact ih (hostOp_keeps_bounds op hs)

/-- Settles O14, operation by operation, and then by induction on the list of operations from reset. -/
theorem hostOperationsKeepTheBounds : Obligations.HostOperationsKeepTheBounds :=
  ⟨fun op _ => hostOp_keeps_bounds op, fun ops => hostRun_keeps_bounds ops resetMeetsTheBounds⟩

/-! ### Who writes what -/

/-- Settles O15, by the effects: three of them write registers, and the two that write VF besides leave a flag in it. -/
theorem registersChangeOnlyAsDestinationOrFlag : Obligations.RegistersChangeOnlyAsDestinationOrFlag := by
  intro i s t h
  cases exec_effect h with
  | clear | ret | jump | call | offsetJump | loadIndex => exact ⟨fun _ hr => absurd rfl hr, nofun⟩
  | skip _ hflag | log _ hflag => exact ⟨fun _ hr => absurd rfl hr, by simp [hflag]⟩
  | @write _ x hdest hflag b =>
    refine ⟨fun r hr => .inl ?_, by simp [hflag]⟩
    by_cases hx : x = r
    · rw [hdest, hx]
    · exact absurd (readV_setV_other s x r b hx) hr
  | @writeWithFlag _ x hdest hflag b f =>
    refine ⟨fun r hr => ?_, fun _ => by simpa using flagByte_zero_or_one f⟩
    by_cases hx : x = r
    · exact .inl (by rw [hdest, hx])
    · by_cases hvf : VF = r
      · exact .inr ⟨hflag, hvf.symm⟩
      · exact absurd (setResultAndFlag_other s x r b f hx hvf) hr
  | draw x y n d f =>
    refine ⟨fun r hr => .inr ⟨rfl, ?_⟩, fun _ => by simpa using flagByte_zero_or_one f⟩
    by_contra hvf
    exact hr (readV_setV_other _ VF r _ (Ne.symm hvf))

/-- Settles O16, by the effects: each changes the components of its own writer only. -/
theorem eachComponentHasItsWriters : Obligations.EachComponentHasItsWriters := by
  intro i s t h
  cases exec_effect h with
  | clear | ret | jump | call | offsetJump | skip | write | writeWithFlag | loadIndex | draw => simp
  | log hnoop => simp [hnoop]

/-- An instruction outside the transfers and skips leaves PC as it was. -/
theorem exec_pc_of_not_redirectsPc {i : Instr} {s t : State} (h : exec i s = .next t) (hi : redirectsPc i = false) :
    t.pc = s.pc := by
  cases exec_effect h with
  | clear | write | writeWithFlag | loadIndex | draw | log => rfl
  | ret | jump | call | offsetJump => cases hi
  | skip hpc => simp [hpc] at hi

/-- A skip that completes leaves PC + 2 when its test holds, and else PC. -/
theorem skipIf_pc {c : Bool} {s t : State} (h : skipIf c s = .next t) : t.pc = if c then s.pc + 2 else s.pc := by
  cases (skipIf_eq c s).symm.trans h
  rfl

/-- Settles O17, clause by clause. -/
theorem eachInstructionLeavesPcAsListed : Obligations.EachInstructionLeavesPcAsListed := by
  intro i s t h
  refine ⟨?_, ?_, ?_, ?_, ?_, ?_, ?_, exec_pc_of_not_redirectsPc h⟩
  · rintro a (rfl | rfl)
    · cases h
      exact addrOperand_toNat a
    · rcases execCall_cases a s with ⟨-, he⟩ | ⟨-, he⟩ <;> cases he.symm.trans h
      exact addrOperand_toNat a
  · rintro a rfl
    cases h
    exact addrPlusV0_toNat s a
  · rintro rfl
    rcases execRet_cases s with ⟨-, he⟩ | ⟨older, a, hs, he⟩ <;> cases he.symm.trans h
    simp [hs]
  · rintro x kk rfl
    simpa using skipIf_pc h
  · rintro x kk rfl
    simpa using skipIf_pc h
  · rintro x y rfl
    simpa using skipIf_pc h
  · rintro x y rfl
    simpa using skipIf_pc h

/-! ### The timers -/

/-- The state with other timer values. -/
def State.withTimers (s : State) (a b : Byte) : State := { s with dt := a, st := b }

@[simp] theorem withTimers_i (s : State) (a b : Byte) : (s.withTimers a b).i = s.i := rfl
@[simp] theorem withTimers_mem (s : State) (a b : Byte) : (s.withTimers a b).mem = s.mem := rfl
@[simp] theorem withTimers_pc (s : State) (a b : Byte) : (s.withTimers a b).pc = s.pc := rfl

theorem pop_withTimers (s : State) (a b : Byte) :
    (s.withTimers a b).pop = s.pop.map fun p => (p.1, p.2.withTimers a b) := by
  unfold State.pop State.withTimers
  cases s.stack.getLast? <;> rfl

theorem skipIf_withTimers (c : Bool) (s : State) (a b : Byte) :
    skipIf c (s.withTimers a b) = mapNext (·.withTimers a b) (skipIf c s) := by
  cases c <;> rfl

theorem execRet_withTimers (s : State) (a b : Byte) :
    execRet (s.withTimers a b) = mapNext (·.withTimers a b) (execRet s) := by
  unfold execRet
  rw [pop_withTimers]
  cases s.pop <;> rfl

theorem execCall_withTimers (addr : Addr) (s : State) (a b : Byte) :
    execCall addr (s.withTimers a b) = mapNext (·.withTimers a b) (execCall addr s) := by
  rcases execCall_cases addr s with ⟨hs, he⟩ | ⟨hs, he⟩ <;> rw [he]
  · exact if_pos hs
  · exact if_neg hs

theorem execDrw_withTimers (x y : Reg) (n : Nibble) (s : State) (a b : Byte) :
    execDrw x y n (s.withTimers a b) = mapNext (·.withTimers a b) (execDrw x y n s) := by
  unfold execDrw
  rw [withTimers_mem, withTimers_i]
  cases s.mem.readRange s.i.toNat (rowCount n) <;> rfl

/-- Phase 4 neither reads nor writes the timers (R16). -/
theorem exec_withTimers (i : Instr) (s : State) (a b : Byte) :
    exec i (s.withTimers a b) = mapNext (·.withTimers a b) (exec i s) := by
  cases i
  case ret => exact execRet_withTimers s a b
  case call addr => exact execCall_withTimers addr s a b
  case drw x y n => exact execDrw_withTimers x y n s a b
  case seImm | sneImm | seReg | sneReg => exact skipIf_withTimers _ s a b
  all_goals rfl

/-- Settles O18: the fetch reads PC and memory only, and phase 4 is independent of the timers. -/
theorem timersAreNeitherReadNorWritten : Obligations.TimersAreNeitherReadNorWritten := by
  intro s a b
  change step (s.withTimers a b) = mapNext (·.withTimers a b) (step s)
  unfold step
  rw [fetch_congr (withTimers_pc s a b) (withTimers_mem s a b)]
  cases s.fetch with
  | error f => rfl
  | ok w => exact exec_withTimers (decode w) s.advancePc a b

/-! ### Reset -/

/-- Settles O46: each component as R21 gives it. -/
theorem resetZeroesEverything : Obligations.ResetZeroesEverything :=
  ⟨fun r => by simp [State.readV, State.reset], rfl, rfl, rfl, rfl, rfl, rfl, fun _ => rfl, Display.at_off,
    fun _ => rfl⟩

end Sys2Proof.Machine
end

section
/-!
PROOFS for the memory family (20_memory.md): the bounds of the two reads and the byte order of the two-byte read.
-/
namespace Sys2Proof.Machine

/-- Settles O6, clause by clause from the laws of the two reads, which stop at different bounds; the byte order is that of
`wordOfBytes`. -/
theorem memoryReadsAreBoundedAndBigEndian : Obligations.MemoryReadsAreBoundedAndBigEndian := by
  intro m a
  refine ⟨m.read1_of_lt, m.read1_of_ge, fun h => ?_, m.read2_of_ge⟩
  exact ⟨wordOfBytes (m.byteAt a) (m.byteAt (a + 1)), m.read2_of_lt h, wordOfBytes_toNat _ _⟩

end Sys2Proof.Machine
end

section
/-!
PROOFS for the encoding family (30_encoding.md). Decoding undoes encoding on the well-formed instructions, and every word is
the word of the instruction it decodes to; so a statement about words is one about instructions, settled by their cases.
-/
namespace Sys2Proof

open Machine

/-! ### What well-formedness leaves to the unknown words (R57) -/

theorem unknown0Ok_iff {addr : Addr} : unknown0Ok addr = true ↔ addr ≠ 0x0E0 ∧ addr ≠ 0x0EE := by
  simp only [unknown0Ok, Bool.and_eq_true, bne_iff_ne]

theorem unknown59Ok_iff {n : Nibble} : unknown59Ok n = true ↔ n ≠ 0 := bne_iff_ne

theorem unknown8Ok_cases {n : Nibble} (h : unknown8Ok n = true) :
    n = 0x8 ∨ n = 0x9 ∨ n = 0xA ∨ n = 0xB ∨ n = 0xC ∨ n = 0xD ∨ n = 0xF := by
  simpa only [unknown8Ok, Bool.or_eq_true, beq_iff_eq, or_assoc] using h

/-- A well-formed unknown word of family 0 is neither of the family's two listed words (R135). -/
theorem formatA_unknown0_ne {addr : Addr} (h : unknown0Ok addr = true) :
    formatA 0x0 addr ≠ 0x00E0 ∧ formatA 0x0 addr ≠ 0x00EE := by
  obtain ⟨hcls, hret⟩ := unknown0Ok_iff.mp h
  have haddr : fieldAddr (formatA 0x0 addr) = addr := fieldAddr_formatA 0x0 addr
  exact ⟨fun hw => hcls (by rw [← haddr, hw]; rfl), fun hw => hret (by rw [← haddr, hw]; rfl)⟩

/-! ### Decoding undoes encoding -/

theorem decode_unknown0 {addr : Addr} (h : unknown0Ok addr = true) : decode (formatA 0x0 addr) = .unknown0 addr := by
  obtain ⟨hcls, hret⟩ := formatA_unknown0_ne h
  calc decode (formatA 0x0 addr)
    _ = decodeFamily0 (formatA 0x0 addr) := by rw [decode, fieldOp_formatA]; rfl
    _ = .unknown0 addr := by rw [decodeFamily0, if_neg hcls, if_neg hret, fieldAddr_formatA]

theorem decode_unknown8 {x y : Reg} {n : Nibble} (h : unknown8Ok n = true) :
    decode (formatXY 0x8 x y n) = .unknown8 x y n := by
  rcases unknown8Ok_cases h with rfl | rfl | rfl | rfl | rfl | rfl | rfl <;> simp [decode, decodeFamily8]

/-- `op` selects the family, the low nibble the row in families 5, 8 and 9, and the fields are the operands (R51, R55). -/
theorem decode_encode {i : Instr} (h : i.wf = true) : decode (encode i) = i := by
  cases i
  case cls | ret => rfl
  case unknown0 => exact decode_unknown0 h
  case unknown8 => exact decode_unknown8 h
  case unknown5 x y n | unknown9 x y n =>
    have hn : ¬ n = 0#4 := unknown59Ok_iff.mp h
    simp [encode, decode, decodeFamily5, decodeFamily9, hn]
  case seReg | sneReg => simp [encode, decode, decodeFamily5, decodeFamily9]
  case ldReg | orReg | andReg | xorReg | addReg | subReg | shr | subnReg | shl => simp [encode, decode, decodeFamily8]
  all_goals simp [encode, decode]

/-- Settles O1, by the constructors of the instruction. -/
theorem decodeOfEncodeIsTheInstruction : Obligations.DecodeOfEncodeIsTheInstruction :=
  fun _ => decode_encode

theorem decode_of_encode_eq {i : Instr} {w : Word} (hi : i.wf = true) (h : encode i = w) : decode w = i :=
  h ▸ decode_encode hi

/-! ### Every word is the word of the instruction it decodes to -/

/-- `w` is the word of the well-formed instruction `i`. -/
def IsWordOf (w : Word) (i : Instr) : Prop := i.wf = true ∧ encode i = w

theorem decodeFamily0_isWordOf {w : Word} (h : fieldOp w = 0x0) : IsWordOf w (decodeFamily0 w) := by
  have hw : formatA 0x0 (fieldAddr w) = w := formatA_of_op w 0x0 h
  unfold decodeFamily0
  split
  · next hcls => exact ⟨rfl, hcls.symm⟩
  · next hcls =>
    split
    · next hret => exact ⟨rfl, hret.symm⟩
    · next hret =>
      have hE0 : fieldAddr w ≠ 0x0E0 := fun ha => hcls (by rw [← hw, ha]; rfl)
      have hEE : fieldAddr w ≠ 0x0EE := fun ha => hret (by rw [← hw, ha]; rfl)
      exact ⟨unknown0Ok_iff.mpr ⟨hE0, hEE⟩, hw⟩

theorem decodeFamily5_isWordOf {w : Word} (h : fieldOp w = 0x5) : IsWordOf w (decodeFamily5 w) := by
  unfold decodeFamily5
  split
  · next hn => exact ⟨rfl, formatXY_of_op w _ _ h hn⟩
  · next hn => exact ⟨unknown59Ok_iff.mpr hn, formatXY_of_op w _ _ h rfl⟩

theorem decodeFamily8_isWordOf {w : Word} (h : fieldOp w = 0x8) : IsWordOf w (decodeFamily8 w) := by
  simp only [decodeFamily8]
  split
  case h_10 =>
    have hok : unknown8Ok (fieldN w) = true := by
      generalize fieldN w = n at *
      decide +revert
    exact ⟨hok, formatXY_of_op w _ _ h rfl⟩
  all_goals
    next hn => exact ⟨rfl, formatXY_of_op w _ _ h (BitVec.eq_of_toNat_eq hn)⟩

theorem decodeFamily9_isWordOf {w : Word} (h : fieldOp w = 0x9) : IsWordOf w (decodeFamily9 w) := by
  unfold decodeFamily9
  split
  · next hn => exact ⟨rfl, formatXY_of_op w _ _ h hn⟩
  · next hn => exact ⟨unknown59Ok_iff.mpr hn, formatXY_of_op w _ _ h rfl⟩

theorem decode_isWordOf (w : Word) : IsWordOf w (decode w) := by
  unfold decode
  split
  case h_1 h => exact decodeFamily0_isWordOf (BitVec.eq_of_toNat_eq h)
  case h_6 h => exact decodeFamily5_isWordOf (BitVec.eq_of_toNat_eq h)
  case h_9 h => exact decodeFamily8_isWordOf (BitVec.eq_of_toNat_eq h)
  case h_10 h => exact decodeFamily9_isWordOf (BitVec.eq_of_toNat_eq h)
  case h_2 h | h_3 h | h_11 h | h_12 h => exact ⟨rfl, formatA_of_op w _ (BitVec.eq_of_toNat_eq h)⟩
  case h_14 h => exact ⟨rfl, formatXY_of_op w _ _ (BitVec.eq_of_toNat_eq h) rfl⟩
  case h_4 h | h_5 h | h_7 h | h_8 h | h_13 h | h_15 h => exact ⟨rfl, formatXK_of_op w _ (BitVec.eq_of_toNat_eq h)⟩
  case h_16 =>
    have hop : fieldOp w = 0xF := by
      generalize fieldOp w = op at *
      decide +revert
    exact ⟨rfl, formatXK_of_op w _ hop⟩

/-- Settles O2: the decoded instruction is one, and decoding undoes the encoding of any other. -/
theorem everyWordIsOneInstruction : Obligations.EveryWordIsOneInstruction := by
  intro w
  obtain ⟨hwf, hw⟩ := decode_isWordOf w
  exact ⟨hwf, hw, fun _ hi h => (decode_of_encode_eq hi h).symm⟩

/-- Settles O4: each word is the word of the instruction it stands for. -/
theorem writtenOutWordsDecode : Obligations.WrittenOutWordsDecode := by
  unfold Obligations.WrittenOutWordsDecode
  and_intros
  all_goals exact decode_of_encode_eq rfl rfl

/-! ### The bytes of an instruction -/

theorem decodeBytes_encodeBytes {i : Instr} (h : i.wf = true) (rest : List Byte) :
    decodeBytes (encodeBytes i ++ rest) = .ok (i, rest) := by
  change Except.ok (decode (wordOfBytes _ _), rest) = _
  rw [wordOfBytes_of_bytes, decode_encode h]

theorem decodeBytes_eq_error (bytes : List Byte) :
    decodeBytes bytes = .error .fewerThanTwoBytes ↔ bytes.length < 2 := by
  match bytes with
  | [] | [_] => simp [decodeBytes]
  | _ :: _ :: _ => simp [decodeBytes]

/-- Settles O5, by the bytes of a word and by the length of the list. -/
theorem anInstructionIsTwoBytes : Obligations.AnInstructionIsTwoBytes :=
  ⟨fun _ rest h => ⟨rfl, decodeBytes_encodeBytes h rest⟩, fun bytes => (decodeBytes_eq_error bytes).symm⟩

theorem wordAtPc_of_bytes {s : State} {i : Instr}
    (h : [s.mem.byteAt s.pc.toNat, s.mem.byteAt (s.pc.toNat + 1)] = encodeBytes i) : wordAtPc s = encode i := by
  injection h with hhi htail
  injection htail with hlo
  rw [wordAtPc, hhi, hlo, wordOfBytes_of_bytes]

/-- Settles O8: the fetch gives the instruction's word, and decoding gives the instruction back. -/
theorem stepRunsTheEncodedInstruction : Obligations.StepRunsTheEncodedInstruction := by
  intro s i hi hpc hbytes
  calc step s
    _ = exec (decode (wordAtPc s)) s.advancePc := by rw [step, fetch_of_lt hpc]
    _ = exec i s.advancePc := by rw [wordAtPc_of_bytes hbytes, decode_encode hi]

/-- Settles O10: the fetch answers a word or a fault, and no meaning refuses. -/
theorem noStepRefuses : Obligations.NoStepRefuses := by
  intro s r
  unfold step
  cases s.fetch with
  | error f => exact nofun
  | ok w => exact exec_ne_refused (decode w) s.advancePc r

/-! ### The words of the no-operations (R132 to R137) -/

theorem extractLsb'_op (w : Word) : w.extractLsb' 12 4 = fieldOp w := rfl

theorem extractLsb'_n (w : Word) : w.extractLsb' 0 4 = fieldN w := rfl

/-- The nibbles of a well-formed instruction's word tell whether it is a no-operation. -/
theorem noOpWord_encode {i : Instr} (h : i.wf = true) : noOpWord (encode i) = i.isNoOp := by
  cases i
  case cls | ret => rfl
  case unknown0 =>
    simpa [encode, noOpWord, extractLsb'_op, Instr.isNoOp] using formatA_unknown0_ne h
  case unknown5 | unknown9 =>
    simpa [encode, noOpWord, extractLsb'_op, extractLsb'_n, Instr.isNoOp] using unknown59Ok_iff.mp h
  case unknown8 =>
    rcases unknown8Ok_cases h with rfl | rfl | rfl | rfl | rfl | rfl | rfl <;>
      simp [encode, noOpWord, extractLsb'_op, extractLsb'_n, Instr.isNoOp]
  all_goals simp [encode, noOpWord, extractLsb'_op, extractLsb'_n, Instr.isNoOp]

/-- Outside family 0 only `op` and `n` tell whether a word is a no-operation. -/
theorem noOpWord_congr {v w : Word} (hop : fieldOp v = fieldOp w) (hn : fieldN v = fieldN w) (h0 : fieldOp w ≠ 0x0) :
    noOpWord v = noOpWord w := by
  simp only [noOpWord, extractLsb'_op, extractLsb'_n, hop, hn]
  split
  · next h => exact absurd (BitVec.eq_of_toNat_eq h) h0
  all_goals rfl

theorem exec_of_isNoOp {i : Instr} (h : i.isNoOp = true) (s : State) : exec i s = loggedNoOp (encode i) s := by
  cases i
  case unknown0 | unknown5 | unknown8 | unknown9 | unimpC | unimpE | unimpF => rfl
  all_goals cases h

/-- Settles O44, for the word as that of its instruction. -/
theorem unlistedWordsAreLoggedNoOperations : Obligations.UnlistedWordsAreLoggedNoOperations := by
  intro w
  obtain ⟨hwf, hw⟩ := decode_isWordOf w
  have hnoop : noOpWord w = (decode w).isNoOp := by rw [← noOpWord_encode hwf, hw]
  refine ⟨by rw [hnoop], fun h s => ?_⟩
  rw [exec_of_isNoOp (hnoop ▸ h), hw, loggedNoOp_eq, State.diag]

/-! ### The rows of the opcode map (R54, R55) -/

/-- The instruction is what its family leaves over, a row of priority 1. -/
def Instr.isFallback : Instr → Bool
  | .unknown0 _ | .unknown5 _ _ _ | .unknown8 _ _ _ | .unknown9 _ _ _ => true
  | _ => false

/-- The row of the opcode map in which an instruction stands. -/
def Instr.row (i : Instr) : OpcodeRow :=
  match i with
  | .cls | .ret => (i.mnemonic, 0xFFFF, encode i)
  | .seReg _ _ | .ldReg _ _ | .orReg _ _ | .andReg _ _ | .xorReg _ _ | .addReg _ _ | .subReg _ _ | .shr _ _
  | .subnReg _ _ | .shl _ _ | .sneReg _ _ =>
    (i.mnemonic, 0xF00F, formatXY (Laws.HighNibble.family i) 0 0 (fieldN (encode i)))
  | _ => (i.mnemonic, 0xF000, formatA (Laws.HighNibble.family i) 0x000)

theorem selects_iff (r : OpcodeRow) (w : Word) : r.selects w = true ↔ w &&& r.2.1 = r.2.2 := beq_iff_eq

theorem row_mnemonic (i : Instr) : i.row.1 = i.mnemonic := by
  cases i <;> rfl

theorem row_selects_encode (i : Instr) : i.row.selects (encode i) = true := by
  have hop := Laws.HighNibble.of_instr i
  rw [selects_iff]
  cases i
  case cls | ret => rfl
  case seReg | ldReg | orReg | andReg | xorReg | addReg | subReg | shr | subnReg | shl | sneReg =>
    exact (and_mask_F00F _).trans (congrArg (formatXY · 0 0 _) hop)
  all_goals exact (and_mask_F000 _).trans (congrArg (formatA · 0x000) hop)

theorem row_mem (i : Instr) : i.row ∈ if i.isFallback then fallbackRows else exactRows := by
  cases i
  case seReg | ldReg | orReg | andReg | xorReg | addReg | subReg | shr | subnReg | shl | sneReg =>
    have hzero : regBits 0 = 0#4 := rfl
    simp only [Instr.row, encode, fieldN_formatXY]
    simp [Instr.isFallback, Instr.mnemonic, Laws.HighNibble.family, formatXY, hzero, exactRows]
  all_goals
    simp [Instr.row, Instr.isFallback, Instr.mnemonic, Laws.HighNibble.family, encode, formatA, exactRows, fallbackRows]

/-- Two rows that select one word agree on the bits that both test. -/
theorem matches_agree {r q : OpcodeRow} {w : Word} (hr : r.selects w = true) (hq : q.selects w = true) :
    r.2.2 &&& q.2.1 = q.2.2 &&& r.2.1 := by
  rw [selects_iff] at hr hq
  rw [← hr, ← hq, BitVec.and_assoc, BitVec.and_assoc, BitVec.and_comm q.2.1]

/-- No word is selected by two exact rows: they differ in a bit that both test. -/
theorem exactRow_unique {r q : OpcodeRow} {w : Word} (hr : r ∈ exactRows) (hq : q ∈ exactRows)
    (hrw : r.selects w = true) (hqw : q.selects w = true) : r = q := by
  have hdiffer : ∀ r ∈ exactRows, ∀ q ∈ exactRows, r.2.2 &&& q.2.1 = q.2.2 &&& r.2.1 → r = q := by decide
  exact hdiffer r hr q hq (matches_agree hrw hqw)

theorem exactRows_disjoint :
    exactRows.Pairwise (fun r q => ∀ w : Word, ¬ (r.selects w = true ∧ q.selects w = true)) := by
  have hnodup : exactRows.Nodup := by decide
  exact hnodup.imp_of_mem fun hr hq hne _ ⟨hrw, hqw⟩ => hne (exactRow_unique hr hq hrw hqw)

/-- The exact rows by mask: those that test more than `op` match no no-operation, and those that test `op` alone stand in
families without a fallback. -/
theorem exactRows_by_mask : ∀ r ∈ exactRows,
    (r.2.1 = 0xFFFF ∧ noOpWord r.2.2 = false) ∨
    (r.2.1 = 0xF00F ∧ fieldOp r.2.2 ≠ 0x0 ∧ noOpWord r.2.2 = false) ∨
    (r.2.1 = 0xF000 ∧ fieldOp r.2.2 ∉ [0x0, 0x5, 0x8, 0x9]) := by decide

theorem isNoOp_of_isFallback {i : Instr} (h : i.isFallback = true) : i.isNoOp = true := by
  cases i
  case unknown0 | unknown5 | unknown8 | unknown9 => rfl
  all_goals cases h

theorem family_of_isFallback {i : Instr} (h : i.isFallback = true) :
    Laws.HighNibble.family i ∈ [0x0, 0x5, 0x8, 0x9] := by
  cases i
  case unknown0 | unknown5 | unknown8 | unknown9 => simp [Laws.HighNibble.family]
  all_goals cases h

/-- No exact row selects the word of a well-formed fallback. -/
theorem exactRow_not_selects_fallback {r : OpcodeRow} {i : Instr} (hr : r ∈ exactRows) (hwf : i.wf = true)
    (hfb : i.isFallback = true) : r.selects (encode i) ≠ true := by
  have hnoop : noOpWord (encode i) = true := (noOpWord_encode hwf).trans (isNoOp_of_isFallback hfb)
  rw [Ne, selects_iff]
  intro hsel
  rcases exactRows_by_mask r hr with ⟨hm, hlisted⟩ | ⟨hm, h0, hlisted⟩ | ⟨hm, hop⟩ <;> rw [hm] at hsel
  · rw [and_mask_FFFF] at hsel
    rw [← hsel, hnoop] at hlisted
    cases hlisted
  · rw [and_mask_F00F] at hsel
    have hsame : noOpWord (encode i) = noOpWord r.2.2 := noOpWord_congr (by simp [← hsel]) (by simp [← hsel]) h0
    rw [← hsame, hnoop] at hlisted
    cases hlisted
  · rw [and_mask_F000] at hsel
    rw [← hsel, fieldOp_formatA, Laws.HighNibble.of_instr] at hop
    exact hop (family_of_isFallback hfb)

/-- Settles O3: the decoded instruction's row selects the word, and no other exact row does. -/
theorem decodeFollowsTheOpcodeMap : Obligations.DecodeFollowsTheOpcodeMap := by
  refine ⟨exactRows_disjoint, fun w => ?_⟩
  obtain ⟨hwf, hw⟩ := decode_isWordOf w
  have hsel : (decode w).row.selects w = true := by simpa [hw] using row_selects_encode (decode w)
  have hmem := row_mem (decode w)
  cases hfb : (decode w).isFallback <;> rw [hfb] at hmem
  case false =>
    refine ⟨fun r hr hrw => ?_, fun hnone => ?_⟩
    · rw [← row_mnemonic, exactRow_unique hr hmem hrw hsel]
    · exact absurd hsel (by simp [hnone _ hmem])
  case true =>
    refine ⟨fun r hr hrw => ?_, fun _ => ?_⟩
    · rw [← hw] at hrw
      exact absurd hrw (exactRow_not_selects_fallback hr hwf hfb)
    · exact ⟨_, hmem, hsel, (row_mnemonic _).symm, isNoOp_of_isFallback hfb⟩

end Sys2Proof
end

section
/-!
PROOFS for the fetch, decode and execute family (40_fetch_decode_execute.md). A step in its three cases by PC; then the fault
record names the fetch address, a fault ends a host step or a run where it stands, and the events follow the word at PC.
-/
namespace Sys2Proof.Machine

/-! ### A step by where PC stands (R71 to R73) -/

theorem step_of_overrun {s : State} (h : 4096 ≤ s.pc.toNat) : step s = .fault (.programCounterOverrun s.pc) := by
  rw [step, fetch_of_overrun h]
  rfl

theorem step_at_last {s : State} (h : s.pc.toNat = 4095) : step s = .fault (.outOfBounds s.pc none s.pc.toNat) := by
  rw [step, fetch_at_last h]
  rfl

theorem step_of_lt {s : State} (h : s.pc.toNat < 4095) : step s = exec (decode (wordAtPc s)) s.advancePc := by
  rw [step, fetch_of_lt h]

/-- Settles O7, one case of the fetch per clause. -/
theorem stepRunsTheDecodedInstruction : Obligations.StepRunsTheDecodedInstruction :=
  fun _ => ⟨step_of_overrun, fun h => (step_at_last h).trans (by rw [h]), step_of_lt⟩

/-! ### Faults (R76) -/

/-- Phase 4 recovers the fetch address from the advanced PC. -/
theorem pc0_advancePc (s : State) : s.advancePc.pc0 = s.pc := BitVec.add_sub_cancel s.pc 2

/-- A fault of phase 4 names the address that its instruction was fetched from. -/
theorem exec_fault_pc {i : Instr} {s : State} {f : Fault} (h : exec i s = .fault f) : f.pc = s.pc0 := by
  rcases exec_fault_cases h with ⟨-, -, rfl⟩ | ⟨_, -, -, rfl⟩ | ⟨_, _, _, -, -, -, rfl⟩ <;> rfl

/-- A fault of any phase names the PC of the state it stopped in (R156). -/
theorem step_fault_pc {s : State} {f : Fault} (h : step s = .fault f) : f.pc = s.pc := by
  rcases Nat.lt_trichotomy s.pc.toNat 4095 with hpc | hpc | hpc
  · rw [step_of_lt hpc] at h
    exact (exec_fault_pc h).trans (pc0_advancePc s)
  · cases (step_at_last hpc).symm.trans h
    rfl
  · cases (step_of_overrun hpc).symm.trans h
    rfl

theorem hostStep_of_fault {s : State} {f : Fault} (h : step s = .fault f) :
    hostStep s = (.stepped (some f) none, s) := by
  rw [hostStep, h]

theorem hostStep_of_next {s t : State} (h : step s = .next t) : hostStep s = (.stepped none (stepEvent s), t) := by
  rw [hostStep, h]

theorem runFor_of_fault {s : State} {f : Fault} (h : step s = .fault f) (n : Nat) : runFor (n + 1) s = (0, some f, s) := by
  rw [runFor, h]

/-- Settles O11: the state a fault leaves is the one it stopped in, so the next host step is the same step. -/
theorem aFaultingStepCommitsNothing : Obligations.AFaultingStepCommitsNothing := by
  intro s f h
  have hstep := hostStep_of_fault h
  exact ⟨hstep, step_fault_pc h, by rw [hstep, hstep], runFor_of_fault h⟩

/-! ### Diagnostic events (R78) -/

theorem noOpWord_eq_isNoOp (w : Word) : noOpWord w = (decode w).isNoOp :=
  Bool.eq_iff_iff.mpr (unlistedWordsAreLoggedNoOperations w).1

theorem stepEvent_of_lt {s : State} (h : s.pc.toNat < 4095) :
    stepEvent s = if noOpWord (wordAtPc s) then some ⟨s.pc, wordAtPc s⟩ else none := by
  rw [stepEvent, fetch_of_lt h, noOpWord_eq_isNoOp]

/-- A no-operation word at PC adds its event to the record (R131). -/
theorem step_diagnostics_of_noOpWord {s t : State} (h : step s = .next t) (hw : noOpWord (wordAtPc s) = true) :
    t.diagnostics = ⟨s.pc, wordAtPc s⟩ :: s.diagnostics := by
  obtain ⟨-, hexec⟩ := step_next h
  cases ((unlistedWordsAreLoggedNoOperations _).2 hw _).symm.trans hexec
  rw [← pc0_advancePc s]
  rfl

/-- No other word adds to the record. -/
theorem step_diagnostics_of_not_noOpWord {s t : State} (h : step s = .next t) (hw : noOpWord (wordAtPc s) = false) :
    t.diagnostics = s.diagnostics := by
  obtain ⟨-, hexec⟩ := step_next h
  obtain ⟨-, -, -, hwriters, -⟩ := eachComponentHasItsWriters _ _ _ hexec
  by_contra hne
  rw [noOpWord_eq_isNoOp, hwriters hne] at hw
  cases hw

/-- Settles O20: the answer and the record agree on the event, which the word at PC decides. -/
theorem oneDiagnosticForEachNoOperation : Obligations.OneDiagnosticForEachNoOperation := by
  refine ⟨fun s t h => ?_, fun s f h => by rw [hostStep_of_fault h]⟩
  obtain ⟨hpc, -⟩ := step_next h
  rw [hostStep_of_next h, stepEvent_of_lt hpc]
  exact ⟨fun hw => ⟨step_diagnostics_of_noOpWord h hw, by rw [if_pos hw]⟩,
    fun hw => ⟨step_diagnostics_of_not_noOpWord h hw, by rw [hw]; rfl⟩⟩

end Sys2Proof.Machine
end

section
/-!
PROOFS for the control-flow family (41_control_flow.md). Return and call in their two cases each, jumps by their frame; then a
jump to its own address, which leaves the state as it was and so can be stepped for ever.
-/
namespace Sys2Proof.Machine

/-! ### What a transfer leaves unchanged -/

theorem registerFrame_setPc (s : State) (a : Word) : RegisterFrame [] s (s.setPc a) :=
  ⟨fun _ _ => rfl, rfl, rfl, ⟨rfl, rfl⟩, fun _ => rfl, fun _ _ => rfl, rfl⟩

theorem stackFrame_setStack_setPc (s : State) (stack : List Word) (a : Word) :
    StackFrame s { s with stack := stack, pc := a } :=
  ⟨fun _ _ => rfl, rfl, ⟨rfl, rfl⟩, fun _ => rfl, fun _ _ => rfl, rfl⟩

/-! ### Return and call (R80, R82) -/

theorem execRet_of_nil {s : State} (h : s.stack = []) : execRet s = .fault (.stackUnderflow s.pc0 0x00EE) := by
  rcases execRet_cases s with ⟨-, he⟩ | ⟨older, a, hs, -⟩
  · exact he
  · simp [h] at hs

theorem execRet_of_append {s : State} {older : List Word} {a : Word} (h : s.stack = older ++ [a]) :
    execRet s = .next { s with stack := older, pc := a } := by
  rcases execRet_cases s with ⟨hs, -⟩ | ⟨older', a', hs, he⟩
  · simp [h] at hs
  · obtain ⟨rfl, rfl⟩ : older = older' ∧ a = a' := by simpa using h.symm.trans hs
    exact he

theorem execCall_of_full {addr : Addr} {s : State} (h : s.sp = 16) :
    execCall addr s = .fault (.stackOverflow s.pc0 (encode (.call addr))) := if_pos h

theorem execCall_of_room {addr : Addr} {s : State} (h : s.sp ≠ 16) :
    execCall addr s = .next ((s.push s.pc).setPc (addrOperand addr)) := if_neg h

/-- Settles O21, by whether the stack is empty or ends in an entry. -/
theorem returnPopsIntoPc : Obligations.ReturnPopsIntoPc := by
  refine fun s => ⟨rfl, execRet_of_nil, fun older a h => ?_⟩
  exact ⟨_, execRet_of_append h, rfl, rfl, by simp [State.sp, h], stackFrame_setStack_setPc s older a⟩

/-- Settles O22: the word is that of the jump, which sets PC only. -/
theorem jumpGoesToItsAddress : Obligations.JumpGoesToItsAddress :=
  fun addr s => ⟨decode_of_encode_eq rfl rfl, _, rfl, addrOperand_toNat addr, registerFrame_setPc s _⟩

/-- Settles O23, by whether the stack is full. -/
theorem callPushesTheAdvancedPc : Obligations.CallPushesTheAdvancedPc := by
  refine fun addr s => ⟨decode_of_encode_eq rfl rfl, execCall_of_full, fun h => ?_⟩
  exact ⟨_, execCall_of_room h, rfl, List.length_append, addrOperand_toNat addr, stackFrame_setStack_setPc s _ _⟩

/-- Settles O24: the word is that of the jump, and the sum does not wrap. -/
theorem offsetJumpAddsV0 : Obligations.OffsetJumpAddsV0 :=
  fun addr s => ⟨decode_of_encode_eq rfl rfl, _, rfl, addrPlusV0_toNat s addr, registerFrame_setPc s _⟩

/-- Settles O25: the return pops the entry that the call pushed. -/
theorem returnMatchesItsCall : Obligations.ReturnMatchesItsCall :=
  fun _ _ h => ⟨_, execCall_of_room h, fun _ hu => ⟨_, execRet_of_append hu, rfl, rfl⟩⟩

/-! ### A jump to its own address (R81, R176) -/

/-- A jump to the fetch address undoes the advance of the fetch. -/
theorem execJp_advancePc_self {s : State} {addr : Addr} (h : addr.toNat = s.pc.toNat) :
    execJp addr s.advancePc = .next s := by
  have htarget : addrOperand addr = s.pc := BitVec.eq_of_toNat_eq ((addrOperand_toNat addr).trans h)
  rw [execJp, htarget]
  rfl

/-- A state that steps to itself makes any number of steps. -/
theorem stepsOk_of_step_self {s : State} (h : step s = .next s) (k : Nat) : StepsOk k s s := by
  induction k with
  | zero => rfl
  | succ k ih => exact ⟨s, h, ih⟩

/-- Settles O26: the step returns the state it started in, and so do any number of them. -/
theorem jumpToItselfStaysInPlace : Obligations.JumpToItselfStaysInPlace := by
  intro s addr hpc hword haddr
  have hdecode : decode (wordAtPc s) = .jp addr := decode_of_encode_eq rfl hword.symm
  have hself : step s = .next s :=
    calc step s
      _ = exec (decode (wordAtPc s)) s.advancePc := step_of_lt hpc
      _ = execJp addr s.advancePc := by rw [hdecode, exec]
      _ = .next s := execJp_advancePc_self haddr
  exact ⟨hself, fun k => ⟨s, stepsOk_of_step_self hself k⟩⟩

end Sys2Proof.Machine
end

section
/-!
PROOFS for the skip family (42_skip.md). A skip writes PC only, and its test says which of the two values; then one lemma for
the forms that skip on equal operands and one for those that skip on different ones.
-/
namespace Sys2Proof.Machine

/-- A skip whose test is `c` completes and writes PC only (R75). -/
theorem skipIf_completes (c : Bool) (s : State) :
    ∃ t, skipIf c s = .next t ∧ t.pc = (if c then s.pc + 2 else s.pc) ∧ RegisterFrame [] s t :=
  ⟨_, skipIf_eq c s, rfl, registerFrame_setPc s _⟩

/-- The shared meaning of the SE forms (R90, R92). -/
theorem skipIf_beq (a b : Byte) (s : State) :
    ∃ t, skipIf (a == b) s = .next t ∧ (a = b → t.pc = s.pc + 2) ∧ (a ≠ b → t.pc = s.pc) ∧ RegisterFrame [] s t := by
  obtain ⟨t, hnext, hpc, hframe⟩ := skipIf_completes (a == b) s
  exact ⟨t, hnext, fun heq => by simp [hpc, heq], fun hne => by simp [hpc, hne], hframe⟩

/-- The shared meaning of the SNE forms (R91, R93). -/
theorem skipIf_bne (a b : Byte) (s : State) :
    ∃ t, skipIf (a != b) s = .next t ∧ (a ≠ b → t.pc = s.pc + 2) ∧ (a = b → t.pc = s.pc) ∧ RegisterFrame [] s t := by
  obtain ⟨t, hnext, hpc, hframe⟩ := skipIf_completes (a != b) s
  exact ⟨t, hnext, fun hne => by simp [hpc, hne], fun heq => by simp [hpc, heq], hframe⟩

/-- Settles O27: each word is that of its skip, which compares `Vx` with `kk`. -/
theorem immediateSkipsCompareVx : Obligations.ImmediateSkipsCompareVx :=
  fun x kk s => ⟨decode_of_encode_eq rfl rfl, decode_of_encode_eq rfl rfl, skipIf_beq (s.readV x) kk s,
    skipIf_bne (s.readV x) kk s⟩

/-- Settles O28: each word is that of its instruction, the unknown ones well-formed because their low nibble is not 0, and
the skips compare `Vx` with `Vy`. -/
theorem registerSkipsCompareVxVy : Obligations.RegisterSkipsCompareVxVy := by
  refine fun x y s => ⟨decode_of_encode_eq rfl rfl, decode_of_encode_eq rfl rfl, fun n hn => ?_,
    skipIf_beq (s.readV x) (s.readV y) s, skipIf_bne (s.readV x) (s.readV y) s⟩
  have hok : unknown59Ok n = true := unknown59Ok_iff.mpr hn
  exact ⟨decode_of_encode_eq hok rfl, decode_of_encode_eq hok rfl⟩

end Sys2Proof.Machine
end

section
/-!
PROOFS for the load and ALU family (43_load_alu.md). The frames of the two ways to write a result, without and with a flag;
the value of each 8-bit result and of each flag; then the instructions, the flag-writing ones through their shared effect.
-/
namespace Sys2Proof.Machine

/-! ### What a register write leaves unchanged -/

theorem registerFrame_setV (s : State) (x : Reg) (b : Byte) : RegisterFrame [x] s (s.setV x b) :=
  ⟨fun r hr => readV_setV_other s x r b (Ne.symm (List.ne_of_not_mem_cons hr)), rfl, rfl, ⟨rfl, rfl⟩, fun _ => rfl,
    fun _ _ => rfl, rfl⟩

theorem registerFrame_setResultAndFlag (s : State) (x : Reg) (b : Byte) (f : Bool) :
    RegisterFrame [x, VF] s (s.setResultAndFlag x b f) := by
  refine ⟨fun r hr => ?_, rfl, rfl, ⟨rfl, rfl⟩, fun _ => rfl, fun _ _ => rfl, rfl⟩
  obtain ⟨hx, hvf⟩ : r ≠ x ∧ r ≠ VF := by simpa using hr
  exact setResultAndFlag_other s x r b f hx.symm hvf.symm

/-! ### The 8-bit results (R113) -/

@[simp] theorem addByte_toNat (a b : Byte) : (addByte a b).toNat = (a.toNat + b.toNat) % 256 := BitVec.toNat_ofNat ..

@[simp] theorem subByte_toNat (a b : Byte) : (subByte a b).toNat = (256 + a.toNat - b.toNat) % 256 := by
  have hb := b.isLt
  rw [subByte, BitVec.toNat_ofInt]
  omega

@[simp] theorem shrByte_toNat (a : Byte) : (shrByte a).toNat = a.toNat / 2 := by
  rw [shrByte, BitVec.toNat_ushiftRight, Nat.shiftRight_one]

@[simp] theorem shlByte_toNat (a : Byte) : (shlByte a).toNat = a.toNat * 2 % 256 := by
  rw [shlByte, BitVec.toNat_shiftLeft, Nat.shiftLeft_eq]

/-! ### The flags (R106 to R110) -/

theorem flagByte_decide (p : Prop) [Decidable p] : flagByte (decide p) = if p then 0x01 else 0x00 := by
  simp [flagByte]

theorem flagByte_carryFlag (a b : Byte) :
    flagByte (carryFlag a b) = if a.toNat + b.toNat > 255 then 0x01 else 0x00 := flagByte_decide _

theorem flagByte_greaterFlag (a b : Byte) :
    flagByte (greaterFlag a b) = if a.toNat > b.toNat then 0x01 else 0x00 := flagByte_decide _

theorem flagByte_toNat (f : Bool) : (flagByte f).toNat = f.toNat := by
  cases f <;> rfl

theorem flagByte_shiftedOutRight_toNat (a : Byte) : (flagByte (shiftedOutRight a)).toNat = a.toNat % 2 := by
  rw [flagByte_toNat, shiftedOutRight, BitVec.getLsbD, Nat.toNat_testBit, Nat.pow_zero, Nat.div_one]

/-- Bit 7 is the topmost bit of a byte, so nothing is left above it. -/
theorem flagByte_shiftedOutLeft_toNat (a : Byte) : (flagByte (shiftedOutLeft a)).toNat = a.toNat / 128 := by
  have ha := a.isLt
  rw [flagByte_toNat, shiftedOutLeft, BitVec.getLsbD, Nat.toNat_testBit]
  omega

/-! ### Loads and operations without a flag (R100 to R105, R111) -/

/-- Settles O29: the word is that of the load, which writes `kk` into `Vx`. -/
theorem loadImmediateWritesVx : Obligations.LoadImmediateWritesVx :=
  fun x kk s => ⟨decode_of_encode_eq rfl rfl, _, rfl, readV_setV_same s x kk, rfl, registerFrame_setV s x kk⟩

/-- Settles O30: the word is that of the addition, whose sum is narrowed to 8 bits. -/
theorem addImmediateWrapsWithoutFlag : Obligations.AddImmediateWrapsWithoutFlag :=
  fun x kk s => ⟨decode_of_encode_eq rfl rfl, _, rfl, by rw [readV_setV_same, addByte_toNat], rfl,
    registerFrame_setV s x _⟩

/-- Settles O31: the word is that of the copy, which writes the old `Vy` into `Vx`. -/
theorem registerLoadCopiesVy : Obligations.RegisterLoadCopiesVy :=
  fun x _ s => ⟨decode_of_encode_eq rfl rfl, _, rfl, readV_setV_same s x _, rfl, registerFrame_setV s x _⟩

/-- Settles O32: each word is that of its operation, which acts on each bit of the two operands. -/
theorem logicOperationsWithoutFlag : Obligations.LogicOperationsWithoutFlag := by
  refine fun x y s => ⟨decode_of_encode_eq rfl rfl, decode_of_encode_eq rfl rfl, decode_of_encode_eq rfl rfl,
    ⟨_, rfl, rfl, registerFrame_setV s x _, fun k _ => ?_⟩, ⟨_, rfl, rfl, registerFrame_setV s x _, fun k _ => ?_⟩,
    ⟨_, rfl, rfl, registerFrame_setV s x _, fun k _ => ?_⟩⟩
  · rw [readV_setV_same, BitVec.getLsbD_or]
  · rw [readV_setV_same, BitVec.getLsbD_and]
  · rw [readV_setV_same, BitVec.getLsbD_xor]

/-- Settles O38: the word is that of the load, whose address is zero-extended into `I`. -/
theorem loadIndexWritesI : Obligations.LoadIndexWritesI :=
  fun addr _ => ⟨decode_of_encode_eq rfl rfl, _, rfl, addrOperand_toNat addr, rfl, fun _ _ => rfl, rfl, ⟨rfl, rfl⟩,
    fun _ => rfl, fun _ _ => rfl, rfl⟩

/-! ### Operations with a flag (R106 to R110, R112) -/

/-- The shared effect of the flag-writing forms, in the values of the result and the flag. The flag is written last, so it
stands in VF for every `x`, and the result in `Vx` unless `x` is VF (R112). -/
theorem setResultAndFlag_completes (s : State) (x : Reg) {b g : Byte} {f : Bool} {n : Nat} (hresult : b.toNat = n)
    (hflag : flagByte f = g) :
    ∃ t, (.next (s.setResultAndFlag x b f) : Result) = .next t ∧ (x ≠ VF → (t.readV x).toNat = n) ∧ t.readV VF = g ∧
      t.pc = s.pc ∧ RegisterFrame [x, VF] s t := by
  refine ⟨_, rfl, fun hx => ?_, ?_, rfl, registerFrame_setResultAndFlag s x b f⟩
  · rw [setResultAndFlag_dest s x b f hx, hresult]
  · rw [setResultAndFlag_vf, hflag]

/-- Settles O33: both the sum and the carry are of the old operands. -/
theorem addWritesSumAndCarry : Obligations.AddWritesSumAndCarry :=
  fun x y s => ⟨decode_of_encode_eq rfl rfl,
    setResultAndFlag_completes s x (addByte_toNat (s.readV x) (s.readV y)) (flagByte_carryFlag (s.readV x) (s.readV y))⟩

/-- Settles O34: both the difference and the comparison are of the old operands. -/
theorem subWritesDifferenceAndGreater : Obligations.SubWritesDifferenceAndGreater :=
  fun x y s => ⟨decode_of_encode_eq rfl rfl,
    setResultAndFlag_completes s x (subByte_toNat (s.readV x) (s.readV y)) (flagByte_greaterFlag (s.readV x) (s.readV y))⟩

/-- Settles O35: the word is that of the shift for every `y`, and the flag is the bit that the shift drops. -/
theorem shiftRightWritesTheLowBit : Obligations.ShiftRightWritesTheLowBit := by
  intro x _ s
  obtain ⟨t, hnext, hresult, hflag, hrest⟩ :=
    setResultAndFlag_completes s x (f := shiftedOutRight (s.readV x)) (shrByte_toNat (s.readV x)) rfl
  exact ⟨decode_of_encode_eq rfl rfl, t, hnext, hresult, by rw [hflag, flagByte_shiftedOutRight_toNat], hrest⟩

/-- Settles O36: as the subtraction, with the operands exchanged. -/
theorem subnWritesReverseDifference : Obligations.SubnWritesReverseDifference :=
  fun x y s => ⟨decode_of_encode_eq rfl rfl,
    setResultAndFlag_completes s x (subByte_toNat (s.readV y) (s.readV x)) (flagByte_greaterFlag (s.readV y) (s.readV x))⟩

/-- Settles O37: the word is that of the shift for every `y`, and the flag is the bit that the shift drops. -/
theorem shiftLeftWritesTheHighBit : Obligations.ShiftLeftWritesTheHighBit := by
  intro x _ s
  obtain ⟨t, hnext, hresult, hflag, hrest⟩ :=
    setResultAndFlag_completes s x (f := shiftedOutLeft (s.readV x)) (shlByte_toNat (s.readV x)) rfl
  exact ⟨decode_of_encode_eq rfl rfl, t, hnext, hresult, by rw [hflag, flagByte_shiftedOutLeft_toNat], hrest⟩

end Sys2Proof.Machine
end

section
/-!
PROOFS for the display family (44_display.md). The engine's operations through their pixel laws; then the state that a
completed draw leaves, its pixels, its flag and its frame said once, from which one draw and a draw repeated both follow.
-/
namespace Sys2Proof.Machine

/-! ### The engine and the display port (R121 to R123) -/

theorem Display.drawXor_of_lt (d : Display) {x y : Nat} (value : Bool) (hx : x < 64) (hy : y < 32) :
    d.drawXor x y value = some (d.xorAt ⟨x, hx⟩ ⟨y, hy⟩ value) := dif_pos ⟨hx, hy⟩

theorem Display.drawXor_of_ge (d : Display) {x y : Nat} (value : Bool) (h : 64 ≤ x ∨ 32 ≤ y) :
    d.drawXor x y value = none := dif_neg (show ¬ (x < 64 ∧ y < 32) by omega)

/-- Settles O39, by whether the coordinate is on the display. -/
theorem engineCompositesByXor : Obligations.EngineCompositesByXor := by
  refine fun d x y value => ⟨fun hx hy => ?_, d.drawXor_of_ge value⟩
  refine ⟨(d.xorAt ⟨x, hx⟩ ⟨y, hy⟩ value).1, d.drawXor_of_lt value hx hy, ?_, fun p q hpq => ?_⟩
  · simp [Display.at_xorAt]
  · simp [Display.at_xorAt, Fin.ext_iff, hpq]

theorem Display.get?_of_lt (d : Display) {x y : Nat} (hx : x < 64) (hy : y < 32) :
    d.get? x y = some (d.at ⟨x, hx⟩ ⟨y, hy⟩) := dif_pos ⟨hx, hy⟩

theorem Display.get?_of_ge (d : Display) {x y : Nat} (h : 64 ≤ x ∨ 32 ≤ y) : d.get? x y = none :=
  dif_neg (show ¬ (x < 64 ∧ y < 32) by omega)

theorem Display.dump_getElem? (d : Display) (y : Fin 32) : d.dump[y.val]? = some d[y].toList := by
  simp [Display.dump]

/-- Settles O49, by whether the coordinate is on the display, and for the dump row by row. -/
theorem displayReadPortGivesThePixels : Obligations.DisplayReadPortGivesThePixels := by
  refine fun s => ⟨fun x y hx hy => ?_, fun x y h => ?_, s.display.dump, rfl, by simp [Display.dump], fun x y => ?_⟩
  · rw [hostOp, Display.get?_of_lt _ hx hy]
  · rw [hostOp, Display.get?_of_ge _ h]
  · exact ⟨_, s.display.dump_getElem? y, Vector.length_toList, by simp [Display.at]⟩

/-! ### Clear (R124) -/

theorem displayFrame_setDisplay (s : State) (d : Display) : DisplayFrame [] s (s.setDisplay d) :=
  ⟨fun _ _ => rfl, rfl, rfl, ⟨rfl, rfl⟩, fun _ => rfl, rfl⟩

/-- Settles O40: the display is the cleared one, and nothing else is written. -/
theorem clearTurnsEveryPixelOff : Obligations.ClearTurnsEveryPixelOff :=
  fun s => ⟨decode_of_encode_eq rfl rfl, _, rfl, s.display.at_clear, rfl, displayFrame_setDisplay s _⟩

/-! ### A draw that completes (R126, R127) -/

/-- The state that a completed draw leaves: the sprite's rows drawn, and the collision flag in VF. -/
def State.drawn (s : State) (x y : Reg) (n : Nibble) : State :=
  let canvas := drawSprite s.display (s.readV x) (s.readV y) (spriteRows s n)
  (s.setDisplay canvas.1).setV VF (flagByte canvas.2)

section
variable (s : State) (x y : Reg) (n : Nibble)

theorem exec_drw_of_inside (h : n.toNat = 0 ∨ s.i.toNat + n.toNat ≤ 4096) :
    exec (.drw x y n) s = .next (s.drawn x y n) := by
  rcases execDrw_cases x y n s with ⟨hn, (hi : 4096 < s.i.toNat + n.toNat), -⟩ | ⟨-, he⟩
  · omega
  · exact he

theorem exec_drw_of_outside (hn : 0 < n.toNat) (hi : 4096 < s.i.toNat + n.toNat) :
    exec (.drw x y n) s =
      .fault (.outOfBounds (s.pc - 2) (some (encode (.drw x y n))) (max s.i.toNat 4096)) := by
  rcases execDrw_cases x y n s with ⟨-, -, he⟩ | ⟨(h : n.toNat = 0 ∨ s.i.toNat + n.toNat ≤ 4096), -⟩
  · exact he
  · omega

/-- A draw composites the sprite's bit onto each pixel. -/
theorem drawn_at (p : Fin 64) (q : Fin 32) :
    (s.drawn x y n).display.at p q = (s.display.at p q != spriteBit s x y n p q) := by
  rw [← rowsBit_spriteRows]
  exact drawSprite_at ..

/-- A draw leaves 1 in VF exactly when a lit bit met a lit pixel. -/
theorem drawn_vf_eq_one_iff :
    (s.drawn x y n).readV VF = 0x01 ↔ ∃ p q, spriteBit s x y n p q = true ∧ s.display.at p q = true := by
  rw [State.drawn, readV_setV_same, flagByte_eq_one, drawSprite_collided]
  simp only [rowsBit_spriteRows]

/-- A draw leaves 0 in VF exactly when every lit bit met an unlit pixel. -/
theorem drawn_vf_eq_zero_iff :
    (s.drawn x y n).readV VF = 0x00 ↔ ∀ p q, spriteBit s x y n p q = true → s.display.at p q = false := by
  rw [State.drawn, readV_setV_same, flagByte_eq_zero, ← Bool.not_eq_true, drawSprite_collided]
  simp only [rowsBit_spriteRows, not_exists, not_and, Bool.not_eq_true]

theorem displayFrame_drawn : DisplayFrame [VF] s (s.drawn x y n) :=
  ⟨fun _ hr => readV_setV_other _ VF _ _ (Ne.symm (List.ne_of_not_mem_cons hr)), rfl, rfl, ⟨rfl, rfl⟩, fun _ => rfl, rfl⟩

end

/-- Settles O41, by whether the sprite's bytes leave memory. -/
theorem drawCompositesTheSprite : Obligations.DrawCompositesTheSprite := by
  refine fun x y n s => ⟨decode_of_encode_eq rfl rfl, fun ⟨hn, hi⟩ => exec_drw_of_outside s x y n hn hi, fun h => ?_⟩
  exact ⟨_, exec_drw_of_inside s x y n h, drawn_at s x y n, (drawn_vf_eq_one_iff s x y n).mpr,
    (drawn_vf_eq_zero_iff s x y n).mpr, rfl, displayFrame_drawn s x y n⟩

/-! ### A draw repeated (R130) -/

/-- The sprite lies in its rectangle: eight columns and `n` rows from the anchor. -/
theorem spriteBit_of_outside {s : State} {x y : Reg} {n : Nibble} {p : Fin 64} {q : Fin 32}
    (h : p.val < (s.readV x).toNat % 64 ∨ (s.readV x).toNat % 64 + 7 < p.val ∨
      q.val < (s.readV y).toNat % 32 ∨ (s.readV y).toNat % 32 + n.toNat ≤ q.val) :
    spriteBit s x y n p q = false := by
  rw [spriteBit, Bool.and_eq_false_iff, decide_eq_false_iff_not]
  exact .inl (by omega)

/-- What the display instructions write plays no part in the sprite, unless VF is a coordinate. -/
theorem spriteBit_of_displayFrame {s t : State} {x y : Reg} (hframe : DisplayFrame [VF] s t) (hx : x ≠ VF)
    (hy : y ≠ VF) (n : Nibble) : spriteBit t x y n = spriteBit s x y n := by
  obtain ⟨hregs, hi, -, -, hmem, -⟩ := hframe
  funext p q
  simp only [spriteBit, hregs x (by simpa using hx), hregs y (by simpa using hy), hi, hmem _]

/-- Settles O42: the second draw composites the same sprite, so each pixel is complemented twice or not at all. -/
theorem drawingTwiceRestoresTheDisplay : Obligations.DrawingTwiceRestoresTheDisplay := by
  intro x y n s pc2 hx hy hinside
  let t := (s.drawn x y n).setPc pc2
  have hsprite : spriteBit t x y n = spriteBit s x y n :=
    spriteBit_of_displayFrame (displayFrame_drawn s x y n) hx hy n
  have hpixel (p q) : t.display.at p q = (s.display.at p q != spriteBit s x y n p q) := drawn_at s x y n p q
  refine ⟨s.drawn x y n, t.drawn x y n, exec_drw_of_inside s x y n hinside, exec_drw_of_inside t x y n hinside,
    fun p q => ?_, drawn_vf_eq_one_iff s x y n, ?_, fun p q hout => ?_⟩
  · rw [drawn_at, hsprite, hpixel]
    simp
  · rw [drawn_vf_eq_one_iff, hsprite]
    refine exists_congr fun p => exists_congr fun q => and_congr_right fun hbit => ?_
    rw [hpixel, hbit]
    simp
  · rw [drawn_at, spriteBit_of_outside hout]
    simp

end Sys2Proof.Machine
end

section
/-!
PROOFS for the no-operations family (45_unimplemented.md): the seven forms share one meaning; then a run through memory that
reads as zero, step by step up to the overrun.
-/
namespace Sys2Proof.Machine

/-- A no-operation adds its event and leaves the rest of the state as it is (R131). -/
theorem loggedAndNothingElse_of_isNoOp {i : Instr} (h : i.isNoOp = true) (s : State) : LoggedAndNothingElse i s :=
  ⟨_, (exec_of_isNoOp h s).trans (loggedNoOp_eq _ s), rfl, rfl, rfl, rfl, fun _ _ => rfl, ⟨rfl, rfl⟩, fun _ => rfl,
    fun _ _ => rfl⟩

/-- Settles O43: each of the seven forms is a no-operation, whatever its operands. -/
theorem noOperationsOnlyEmitADiagnostic : Obligations.NoOperationsOnlyEmitADiagnostic := by
  intro s addr x y n kk
  and_intros
  all_goals exact loggedAndNothingElse_of_isNoOp rfl s

/-! ### A run through zero memory (R135) -/

/-- A no-operation word at PC advances PC and adds its event, which names the fetch address (R73, R131). -/
theorem step_of_noOpWord {s : State} (hpc : s.pc.toNat < 4095) (hw : noOpWord (wordAtPc s) = true) :
    step s = .next (s.advancePc.diag ⟨s.pc, wordAtPc s⟩) :=
  calc step s
    _ = exec (decode (wordAtPc s)) s.advancePc := step_of_lt hpc
    _ = .next (s.advancePc.diag ⟨s.advancePc.pc0, wordAtPc s⟩) := (unlistedWordsAreLoggedNoOperations _).2 hw _
    _ = .next (s.advancePc.diag ⟨s.pc, wordAtPc s⟩) := by rw [pc0_advancePc]

theorem runFor_of_next {s t : State} (h : step s = .next t) (n : Nat) :
    runFor (n + 1) s = ((runFor n t).1 + 1, (runFor n t).2) := by
  rw [runFor, h]

theorem noOpWord_wordAtPc_of_zero {s : State} (hmem : ∀ a, s.mem.byteAt a = 0x00) : noOpWord (wordAtPc s) = true := by
  rw [wordAtPc, hmem, hmem]
  rfl

/-- O45 from any PC that is a whole number of instructions before the end of memory, by induction on that number. -/
theorem runFor_zeroMemory (k n : Nat) (s : State) (hmem : ∀ a, s.mem.byteAt a = 0x00)
    (hpc : s.pc.toNat + 2 * k = 4096) (hkn : k < n) :
    ∃ t, runFor n s = (k, some (.programCounterOverrun 0x1000), t) ∧
      t.diagnostics.length = s.diagnostics.length + k ∧
      { t with diagnostics := s.diagnostics } = { s with pc := 0x1000 } := by
  induction k generalizing n s with
  | zero =>
    obtain ⟨m, rfl⟩ := Nat.exists_eq_add_one.mpr hkn
    have hend : s.pc = 0x1000 := BitVec.eq_of_toNat_eq hpc
    refine ⟨s, ?_, rfl, by rw [← hend]⟩
    rw [runFor_of_fault (step_of_overrun hpc.ge), hend]
  | succ k ih =>
    obtain ⟨m, rfl⟩ := Nat.exists_eq_add_one.mpr (Nat.zero_lt_of_lt hkn)
    have hstep := step_of_noOpWord (by omega) (noOpWord_wordAtPc_of_zero hmem)
    have hadvance : (s.pc + 2).toNat + 2 * k = 4096 := by rw [toNat_add_two (by omega)]; omega
    obtain ⟨t, hrun, hlength, hrest⟩ := ih m (s.advancePc.diag ⟨s.pc, wordAtPc s⟩) hmem hadvance (by omega)
    refine ⟨t, ?_, ?_, congrArg (fun u => { u with diagnostics := s.diagnostics }) hrest⟩
    · rw [runFor_of_next hstep, hrun]
    · exact hlength.trans (Nat.succ_add_eq_add_succ s.diagnostics.length k)

/-- Settles O45: PC = 0 is 2048 steps before the end of memory. -/
theorem zeroMemoryRunsToTheOverrun : Obligations.ZeroMemoryRunsToTheOverrun :=
  fun s n hmem hpc hn => runFor_zeroMemory 2048 n s hmem (by rw [hpc]; rfl) hn

end Sys2Proof.Machine
end

section
/-!
PROOFS for the exception family (60_exceptions.md). When the meaning of a word faults, in the word's own fields, and so when a
step does; then the record of events, which no meaning reads and to which only a no-operation adds.
-/
namespace Sys2Proof.Machine

/-! ### The words of the instructions that can fault (R51, R55) -/

theorem encode_decode (w : Word) : encode (decode w) = w := (decode_isWordOf w).2

theorem word_of_decode {w : Word} {i : Instr} (h : decode w = i) : w = encode i := by
  rw [← h, encode_decode]

theorem decode_of_op_call {w : Word} (h : fieldOp w = 0x2) : decode w = .call (fieldAddr w) :=
  decode_of_encode_eq rfl (formatA_of_op w 0x2 h)

theorem decode_of_op_drw {w : Word} (h : fieldOp w = 0xD) : decode w = .drw (fieldX w) (fieldY w) (fieldN w) :=
  decode_of_encode_eq rfl (formatXY_of_op w 0xD _ h rfl)

/-! ### When a step faults (R140 to R143, R156) -/

/-- Phase 4 faults under the three conditions of R141, R142 and R143, read off the word. -/
theorem exec_decode_fault_iff (w : Word) (s : State) (f : Fault) :
    exec (decode w) s = .fault f ↔
      (w = 0x00EE ∧ s.stack = [] ∧ f = .stackUnderflow s.pc0 0x00EE) ∨
      (fieldOp w = 0x2 ∧ s.stack.length = 16 ∧ f = .stackOverflow s.pc0 w) ∨
      (fieldOp w = 0xD ∧ 0 < (fieldN w).toNat ∧ 4096 < s.i.toNat + (fieldN w).toNat ∧
        f = .outOfBounds s.pc0 (some w) (max s.i.toNat 4096)) := by
  constructor
  · intro h
    rcases exec_fault_cases h with ⟨hi, hstack, hf⟩ | ⟨addr, hi, hsp, hf⟩ | ⟨x, y, n, hi, hn, hout, hf⟩
    · exact .inl ⟨word_of_decode hi, hstack, hf⟩
    · have hop : fieldOp w = 0x2 := by rw [word_of_decode hi]; exact fieldOp_formatA ..
      exact .inr (.inl ⟨hop, hsp, by rw [hf, encode_decode]⟩)
    · have hop : fieldOp w = 0xD := by rw [word_of_decode hi]; exact fieldOp_formatXY ..
      have hfield : fieldN w = n := by rw [word_of_decode hi]; exact fieldN_formatXY ..
      rw [encode_decode] at hf
      exact .inr (.inr ⟨hop, by rwa [hfield], by rwa [hfield], hf⟩)
  · rintro (⟨rfl, hstack, rfl⟩ | ⟨hop, hsp, rfl⟩ | ⟨hop, hn, hout, rfl⟩)
    · exact execRet_of_nil hstack
    · rw [decode_of_op_call hop]
      exact (execCall_of_full hsp).trans (by rw [← decode_of_op_call hop, encode_decode])
    · rw [decode_of_op_drw hop, exec_drw_of_outside _ _ _ _ hn hout, ← decode_of_op_drw hop, encode_decode]
      rfl

/-- Settles O9, by where PC stands: the fetch faults at and past the last byte of memory, and below it phase 4 decides. -/
theorem stepFaultsExactlyOnTheFourConditions : Obligations.StepFaultsExactlyOnTheFourConditions := by
  intro s f
  rcases Nat.lt_trichotomy s.pc.toNat 4095 with hpc | hpc | hpc
  · have hin : ¬ 4096 ≤ s.pc.toNat := by omega
    rw [step_of_lt hpc, exec_decode_fault_iff, pc0_advancePc]
    simp [hpc, hpc.ne, hin]
  · rw [step_at_last hpc]
    simp [hpc, eq_comm]
  · have hover : 4096 ≤ s.pc.toNat := hpc
    rw [step_of_overrun hover]
    simp [hover, hpc.ne', hpc.not_gt, eq_comm]

/-! ### The record of events (R144) -/

/-- The state with another record of events. -/
def State.withDiagnostics (s : State) (l : List DiagEvent) : State := { s with diagnostics := l }

@[simp] theorem withDiagnostics_pc (s : State) (l : List DiagEvent) : (s.withDiagnostics l).pc = s.pc := rfl
@[simp] theorem withDiagnostics_mem (s : State) (l : List DiagEvent) : (s.withDiagnostics l).mem = s.mem := rfl

/-- An instruction that emits no event neither reads nor writes the record. -/
theorem exec_withDiagnostics {i : Instr} (h : i.isNoOp = false) (s : State) (l : List DiagEvent) :
    exec i (s.withDiagnostics l) = mapNext (·.withDiagnostics l) (exec i s) := by
  cases i
  case ret =>
    rcases execRet_cases s with ⟨hs, he⟩ | ⟨older, a, hs, he⟩ <;> rw [exec, exec, he]
    · exact execRet_of_nil hs
    · exact execRet_of_append hs
  case call addr =>
    rcases execCall_cases addr s with ⟨hs, he⟩ | ⟨hs, he⟩ <;> rw [exec, exec, he]
    · exact execCall_of_full hs
    · exact execCall_of_room hs
  case drw x y n =>
    rcases execDrw_cases x y n s with ⟨hn, hi, he⟩ | ⟨hi, he⟩ <;> rw [exec, exec, he]
    · exact exec_drw_of_outside _ x y n hn hi
    · exact exec_drw_of_inside _ x y n hi
  case seImm | sneImm | seReg | sneReg =>
    exact (skipIf_eq _ _).trans (congrArg (mapNext (·.withDiagnostics l)) (skipIf_eq _ s).symm)
  case unknown0 | unknown5 | unknown8 | unknown9 | unimpC | unimpE | unimpF => cases h
  all_goals rfl

/-- A no-operation adds its event to whichever record it finds. -/
theorem exec_withDiagnostics_of_isNoOp {i : Instr} (h : i.isNoOp = true) (s : State) (l : List DiagEvent) :
    exec i (s.withDiagnostics l) = mapNext (·.withDiagnostics (⟨s.pc0, encode i⟩ :: l)) (exec i s) := by
  rw [exec_of_isNoOp h, exec_of_isNoOp h]
  rfl

/-- Settles O19: the fetch reads PC and memory only, and in phase 4 only a no-operation touches the record. -/
theorem diagnosticsAreNeverRead : Obligations.DiagnosticsAreNeverRead := by
  intro s l
  change step (s.withDiagnostics l) = mapNext (·.withDiagnostics ((stepEvent s).toList ++ l)) (step s)
  unfold step stepEvent
  rw [fetch_congr (withDiagnostics_pc s l) (withDiagnostics_mem s l)]
  cases s.fetch with
  | error f => rfl
  | ok w =>
    cases hnoop : (decode w).isNoOp
    case false =>
      simp only [hnoop]
      exact exec_withDiagnostics hnoop s.advancePc l
    case true =>
      simp only [hnoop]
      have hexec := exec_withDiagnostics_of_isNoOp hnoop s.advancePc l
      rwa [pc0_advancePc, encode_decode] at hexec

end Sys2Proof.Machine
end

section
/-!
PROOFS for the reset and hazards family (70_reset_and_hazards.md): the host's load by whether the image fits, a run by how it
ends, and the timer and observation ports.
-/
namespace Sys2Proof.Machine

/-! ### Load (R162, R163) -/

theorem Memory.write_of_le (m : Memory) {a : Nat} {bytes : List Byte} (h : a + bytes.length ≤ Config.memSize) :
    m.write a bytes = some (m.setBytes a bytes) := if_pos h

theorem hostLoad_of_le {bytes : List Byte} {base : Nat} (s : State) (h : base + bytes.length ≤ 4096) :
    hostLoad bytes base s = (.ok, { s with mem := s.mem.setBytes base bytes, pc := BitVec.ofNat 16 base }) := by
  rw [hostLoad, Memory.write_of_le _ h]

theorem hostLoad_of_gt {bytes : List Byte} {base : Nat} (s : State) (h : 4096 < base + bytes.length) :
    hostLoad bytes base s = (.outOfBounds, s) := by
  rw [hostLoad, Memory.write_eq_none.mpr h]

/-- Settles O47, by whether the image fits; what memory then reads as is the law of reads after a write of bytes. -/
theorem loadPlacesTheImageOrNothing : Obligations.LoadPlacesTheImageOrNothing := by
  refine fun bytes base s hmem => ⟨fun hfit => ?_, hostLoad_of_gt s⟩
  refine ⟨_, hostLoad_of_le s hfit, ?_, fun k hk => ?_, fun a ha => ?_, rfl⟩
  · exact (BitVec.toNat_ofNat ..).trans (Nat.mod_eq_of_lt (by omega))
  · rw [Memory.byteAt_setBytes hmem hfit, dif_pos (by omega)]
    simp only [Nat.add_sub_cancel_left]
  · rw [Memory.byteAt_setBytes hmem hfit, dif_neg (by omega)]

/-! ### Run (R167) -/

theorem step_next_or_fault (s : State) : (∃ t, step s = .next t) ∨ ∃ f, step s = .fault f := by
  cases h : step s with
  | next t => exact .inl ⟨t, rfl⟩
  | fault f => exact .inr ⟨f, rfl⟩
  | refused r => exact absurd h (noStepRefuses s r)

/-- The two ends of a run: all its steps answer `Ok`, or one of them faults and those before it answer `Ok`. -/
theorem runFor_cases (n : Nat) (s : State) :
    (∃ t, runFor n s = (n, none, t) ∧ StepsOk n s t) ∨
    ∃ k f t, runFor n s = (k, some f, t) ∧ k < n ∧ StepsOk k s t ∧ step t = .fault f := by
  induction n generalizing s with
  | zero => exact .inl ⟨s, rfl, rfl⟩
  | succ n ih =>
    obtain ⟨u, hstep⟩ | ⟨f, hstep⟩ := step_next_or_fault s
    · obtain ⟨t, hrun, hok⟩ | ⟨k, f, t, hrun, hk, hok, hfault⟩ := ih u
      · exact .inl ⟨t, by rw [runFor_of_next hstep, hrun], u, hstep, hok⟩
      · exact .inr ⟨k + 1, f, t, by rw [runFor_of_next hstep, hrun], Nat.succ_lt_succ hk, ⟨u, hstep, hok⟩, hfault⟩
    · exact .inr ⟨0, f, s, runFor_of_fault hstep n, n.succ_pos, rfl, hstep⟩

theorem hostOp_run_of_runFor {n k : Nat} {s t : State} {f : Option Fault} (h : runFor n s = (k, f, t)) :
    hostOp (.run n) s = (.ran k f, t) := by
  rw [hostOp, h]

/-- Settles O48, by how the run ends. -/
theorem runStepsUntilTheCountOrAFault : Obligations.RunStepsUntilTheCountOrAFault := by
  intro n s
  obtain ⟨t, hrun, hok⟩ | ⟨k, f, t, hrun, hk, hok, hfault⟩ := runFor_cases n s
  · exact ⟨n, none, t, hostOp_run_of_runFor hrun, n.le_refl, hok, fun _ => rfl, nofun⟩
  · refine ⟨k, some f, t, hostOp_run_of_runFor hrun, hk.le, hok, nofun, ?_⟩
    rintro g ⟨⟩
    exact ⟨hk, hfault⟩

/-! ### Timer ports and observation (R168, R169) -/

/-- Settles O50: a timer port reads or writes the field of the timer it names. -/
theorem timerPortsStoreAndRead : Obligations.TimerPortsStoreAndRead := fun _ _ => ⟨rfl, rfl, rfl, rfl⟩

theorem hostOp_observe_keeps_state (item : ObserveItem) (s : State) : (hostOp (.observe item) s).2 = s := by
  rw [hostOp]
  split <;> rfl

theorem observe_stackEntry_of_lt (s : State) {k : Nat} (hk : k < s.stack.length) :
    observe s (.stackEntry k) = some s.stack[k].toNat := by
  rw [observe, List.getElem?_eq_getElem hk, Option.map_some]

theorem observe_memByte_of_lt (s : State) {a : Nat} (ha : a < 4096) :
    observe s (.memByte a) = some (s.mem.byteAt a).toNat := by
  rw [observe, Memory.read1_of_lt _ ha]

theorem observe_pixel (s : State) (x : Fin 64) (y : Fin 32) :
    observe s (.pixel x y) = some (s.display.at x y).toNat := by
  rw [observe, Display.get?_of_lt _ x.isLt y.isLt, Option.map_some]

/-- Settles O51: the registers are read as they stand; a stack entry, a byte or a pixel in its range is there to be read. -/
theorem observationShowsAllAndChangesNothing : Obligations.ObservationShowsAllAndChangesNothing :=
  fun s => ⟨fun item => hostOp_observe_keeps_state item s, fun _ => rfl, rfl, rfl, rfl,
    fun _ => observe_stackEntry_of_lt s, rfl, rfl, fun _ => observe_memByte_of_lt s, observe_pixel s⟩

end Sys2Proof.Machine
end
